-- ==== Sys2Proof/Word.lean ====
section
/-! DEFINITION. The word types of CA8-v7 (00_scope.md R5, R7; 10_state.md R23). -/

namespace Sys2Proof

/-- A register, a memory cell, an operand byte: `XLEN` = 8 bits, unsigned (R5, R7). -/
abbrev Byte := BitVec 8

/-- The program counter, "0..256 (9-bit)" (R23). -/
abbrev PcWord := BitVec 9

end Sys2Proof
end

