-- ==== Sys2Proof/Syntax.lean ====
section
/-! DEFINITION. Instructions as syntax: one constructor per row of spec/opcode_table.json
(30_encoding.md R72). An operand is the operand BYTE as it stands in memory; whether a register
operand is 0..7 is checked by the instruction's meaning (40_engine.md R103), so a byte above 7 is
part of the syntax and `WellFormed` tells it apart. -/

namespace Sys2Proof

/-- The eight general registers (10_state.md R20). -/
inductive Reg where
  | r0 | r1 | r2 | r3 | r4 | r5 | r6 | r7
  deriving DecidableEq, Repr

/-- The 34 mnemonics, in the order of opcode_table.json (R72). -/
inductive Mnemonic where
  | nop | hlt | ret | iret
  | push | pop | prn | pra
  | call | int | jmp | jeq | jne | jgt | jlt | jle | jge
  | inc | dec | not
  | ldi | ld | st
  | add | sub | mul | div | mod | cmp | and | or | xor | shl | shr
  deriving DecidableEq, Repr

/-- The instructions. `a` is operand A (the byte at pc+1), `b` operand B (at pc+2); `imm` is LDI's
operand B, "a literal byte, not a register index" (R75). -/
inductive Instr where
  | nop
  | hlt
  | ret
  | iret
  | push (a : Byte)
  | pop (a : Byte)
  | prn (a : Byte)
  | pra (a : Byte)
  | call (a : Byte)
  | int (a : Byte)
  | jmp (a : Byte)
  | jeq (a : Byte)
  | jne (a : Byte)
  | jgt (a : Byte)
  | jlt (a : Byte)
  | jle (a : Byte)
  | jge (a : Byte)
  | inc (a : Byte)
  | dec (a : Byte)
  | not (a : Byte)
  | ldi (a imm : Byte)
  | ld (a b : Byte)
  | st (a b : Byte)
  | add (a b : Byte)
  | sub (a b : Byte)
  | mul (a b : Byte)
  | div (a b : Byte)
  | mod (a b : Byte)
  | cmp (a b : Byte)
  | and (a b : Byte)
  | or (a b : Byte)
  | xor (a b : Byte)
  | shl (a b : Byte)
  | shr (a b : Byte)
  deriving DecidableEq, Repr

end Sys2Proof
end

