-- ==== Sys2Proof/WellFormed.lean ====
section
/-! DEFINITION. Which instructions are well formed: every register operand is "a register index 0–7"
(30_encoding.md R74). LDI's operand B is an immediate and is not checked (R75, 40_engine.md R103). -/

namespace Sys2Proof

/-- A byte that names a register (R74). -/
def isRegisterByte (a : Byte) : Bool := a.toNat ≤ 7

/-- The check, one line per constructor. -/
def Instr.wellFormed : Instr → Bool
  | .nop => true
  | .hlt => true
  | .ret => true
  | .iret => true
  | .push a => isRegisterByte a
  | .pop a => isRegisterByte a
  | .prn a => isRegisterByte a
  | .pra a => isRegisterByte a
  | .call a => isRegisterByte a
  | .int a => isRegisterByte a
  | .jmp a => isRegisterByte a
  | .jeq a => isRegisterByte a
  | .jne a => isRegisterByte a
  | .jgt a => isRegisterByte a
  | .jlt a => isRegisterByte a
  | .jle a => isRegisterByte a
  | .jge a => isRegisterByte a
  | .inc a => isRegisterByte a
  | .dec a => isRegisterByte a
  | .not a => isRegisterByte a
  | .ldi a _ => isRegisterByte a
  | .ld a b => isRegisterByte a && isRegisterByte b
  | .st a b => isRegisterByte a && isRegisterByte b
  | .add a b => isRegisterByte a && isRegisterByte b
  | .sub a b => isRegisterByte a && isRegisterByte b
  | .mul a b => isRegisterByte a && isRegisterByte b
  | .div a b => isRegisterByte a && isRegisterByte b
  | .mod a b => isRegisterByte a && isRegisterByte b
  | .cmp a b => isRegisterByte a && isRegisterByte b
  | .and a b => isRegisterByte a && isRegisterByte b
  | .or a b => isRegisterByte a && isRegisterByte b
  | .xor a b => isRegisterByte a && isRegisterByte b
  | .shl a b => isRegisterByte a && isRegisterByte b
  | .shr a b => isRegisterByte a && isRegisterByte b

end Sys2Proof
end

