-- ==== Sys2Proof/Decode.lean ====
section
/-! DEFINITION. Decoding (30_encoding.md R70, R72, R73, R76) and encoding (R79). Decoding is total on
any list of bytes and rejects by name. -/

namespace Sys2Proof

/-- One row of R72's table: "{mnemonic, operand_count, is_alu}" (R73) with the row's opcode byte. -/
structure OpcodeRow where
  mnemonic : Mnemonic
  opcode : Byte
  operandCount : Nat
  isAlu : Bool
  deriving DecidableEq, Repr

/-- R72's rows of format F0. -/
def opcodeRows0 : List OpcodeRow :=
  [ ⟨.nop, 0x00#8, 0, false⟩,
    ⟨.hlt, 0x01#8, 0, false⟩,
    ⟨.ret, 0x11#8, 0, false⟩,
    ⟨.iret, 0x13#8, 0, false⟩ ]

/-- R72's rows of format F1. -/
def opcodeRows1 : List OpcodeRow :=
  [ ⟨.push, 0x45#8, 1, false⟩,
    ⟨.pop, 0x46#8, 1, false⟩,
    ⟨.prn, 0x47#8, 1, false⟩,
    ⟨.pra, 0x48#8, 1, false⟩,
    ⟨.call, 0x50#8, 1, false⟩,
    ⟨.int, 0x52#8, 1, false⟩,
    ⟨.jmp, 0x54#8, 1, false⟩,
    ⟨.jeq, 0x55#8, 1, false⟩,
    ⟨.jne, 0x56#8, 1, false⟩,
    ⟨.jgt, 0x57#8, 1, false⟩,
    ⟨.jlt, 0x58#8, 1, false⟩,
    ⟨.jle, 0x59#8, 1, false⟩,
    ⟨.jge, 0x5A#8, 1, false⟩,
    ⟨.inc, 0x65#8, 1, true⟩,
    ⟨.dec, 0x66#8, 1, true⟩,
    ⟨.not, 0x69#8, 1, true⟩ ]

/-- R72's rows of format F2. -/
def opcodeRows2 : List OpcodeRow :=
  [ ⟨.ldi, 0x82#8, 2, false⟩,
    ⟨.ld, 0x83#8, 2, false⟩,
    ⟨.st, 0x84#8, 2, false⟩,
    ⟨.add, 0xA0#8, 2, true⟩,
    ⟨.sub, 0xA1#8, 2, true⟩,
    ⟨.mul, 0xA2#8, 2, true⟩,
    ⟨.div, 0xA3#8, 2, true⟩,
    ⟨.mod, 0xA4#8, 2, true⟩,
    ⟨.cmp, 0xA7#8, 2, true⟩,
    ⟨.and, 0xA8#8, 2, true⟩,
    ⟨.or, 0xAA#8, 2, true⟩,
    ⟨.xor, 0xAB#8, 2, true⟩,
    ⟨.shl, 0xAC#8, 2, true⟩,
    ⟨.shr, 0xAD#8, 2, true⟩ ]

/-- The opcode table, a constant of the hardware (10_state.md R31, R72). -/
def opcodeTable : List OpcodeRow := opcodeRows0 ++ opcodeRows1 ++ opcodeRows2

/-- `decode` of R73: the whole byte is compared with the 34 rows; `none` is UnknownOpcode. -/
def lookupOpcode (op : Byte) : Option OpcodeRow :=
  opcodeTable.find? (fun row => row.opcode == op)

/-- The opcode byte of a mnemonic (R72's hex column). -/
def Mnemonic.opcode : Mnemonic → Byte
  | .nop => 0x00#8
  | .hlt => 0x01#8
  | .ret => 0x11#8
  | .iret => 0x13#8
  | .push => 0x45#8
  | .pop => 0x46#8
  | .prn => 0x47#8
  | .pra => 0x48#8
  | .call => 0x50#8
  | .int => 0x52#8
  | .jmp => 0x54#8
  | .jeq => 0x55#8
  | .jne => 0x56#8
  | .jgt => 0x57#8
  | .jlt => 0x58#8
  | .jle => 0x59#8
  | .jge => 0x5A#8
  | .inc => 0x65#8
  | .dec => 0x66#8
  | .not => 0x69#8
  | .ldi => 0x82#8
  | .ld => 0x83#8
  | .st => 0x84#8
  | .add => 0xA0#8
  | .sub => 0xA1#8
  | .mul => 0xA2#8
  | .div => 0xA3#8
  | .mod => 0xA4#8
  | .cmp => 0xA7#8
  | .and => 0xA8#8
  | .or => 0xAA#8
  | .xor => 0xAB#8
  | .shl => 0xAC#8
  | .shr => 0xAD#8

/-- The instruction of a mnemonic with operand bytes A and B; an operand it does not have is not used. -/
def Mnemonic.instr (m : Mnemonic) (a b : Byte) : Instr :=
  match m with
  | .nop => .nop
  | .hlt => .hlt
  | .ret => .ret
  | .iret => .iret
  | .push => .push a
  | .pop => .pop a
  | .prn => .prn a
  | .pra => .pra a
  | .call => .call a
  | .int => .int a
  | .jmp => .jmp a
  | .jeq => .jeq a
  | .jne => .jne a
  | .jgt => .jgt a
  | .jlt => .jlt a
  | .jle => .jle a
  | .jge => .jge a
  | .inc => .inc a
  | .dec => .dec a
  | .not => .not a
  | .ldi => .ldi a b
  | .ld => .ld a b
  | .st => .st a b
  | .add => .add a b
  | .sub => .sub a b
  | .mul => .mul a b
  | .div => .div a b
  | .mod => .mod a b
  | .cmp => .cmp a b
  | .and => .and a b
  | .or => .or a b
  | .xor => .xor a b
  | .shl => .shl a b
  | .shr => .shr a b

/-- Why a list of bytes is no instruction. -/
inductive DecodeError where
  /-- There is no opcode byte. -/
  | noOpcode
  /-- The opcode byte is none of the 34 (R73, 60_exceptions.md R222). -/
  | unknownOpcode (op : Byte)
  /-- The bytes end before the last operand of opcode `op` (R76). -/
  | truncated (op : Byte)
  deriving DecidableEq, Repr

/-- Decode the instruction at the head of a list of bytes; the answer holds the bytes after it. The
length depends on the opcode byte alone (R76), the order is opcode, A, B (20_memory.md R53). -/
def decode : List Byte → Except DecodeError (Instr × List Byte)
  | [] => .error .noOpcode
  | op :: rest =>
    match lookupOpcode op with
    | none => .error (.unknownOpcode op)
    | some row =>
      match row.operandCount, rest with
      | 0, rest => .ok (row.mnemonic.instr 0 0, rest)
      | 1, a :: rest => .ok (row.mnemonic.instr a 0, rest)
      | 2, a :: b :: rest => .ok (row.mnemonic.instr a b, rest)
      | _, _ => .error (.truncated op)

/-- The mnemonic of an instruction. -/
def Instr.mnemonic : Instr → Mnemonic
  | .nop => .nop
  | .hlt => .hlt
  | .ret => .ret
  | .iret => .iret
  | .push _ => .push
  | .pop _ => .pop
  | .prn _ => .prn
  | .pra _ => .pra
  | .call _ => .call
  | .int _ => .int
  | .jmp _ => .jmp
  | .jeq _ => .jeq
  | .jne _ => .jne
  | .jgt _ => .jgt
  | .jlt _ => .jlt
  | .jle _ => .jle
  | .jge _ => .jge
  | .inc _ => .inc
  | .dec _ => .dec
  | .not _ => .not
  | .ldi _ _ => .ldi
  | .ld _ _ => .ld
  | .st _ _ => .st
  | .add _ _ => .add
  | .sub _ _ => .sub
  | .mul _ _ => .mul
  | .div _ _ => .div
  | .mod _ _ => .mod
  | .cmp _ _ => .cmp
  | .and _ _ => .and
  | .or _ _ => .or
  | .xor _ _ => .xor
  | .shl _ _ => .shl
  | .shr _ _ => .shr

/-- The operand bytes of an instruction, A before B (R79). -/
def Instr.operands : Instr → List Byte
  | .nop => []
  | .hlt => []
  | .ret => []
  | .iret => []
  | .push a => [a]
  | .pop a => [a]
  | .prn a => [a]
  | .pra a => [a]
  | .call a => [a]
  | .int a => [a]
  | .jmp a => [a]
  | .jeq a => [a]
  | .jne a => [a]
  | .jgt a => [a]
  | .jlt a => [a]
  | .jle a => [a]
  | .jge a => [a]
  | .inc a => [a]
  | .dec a => [a]
  | .not a => [a]
  | .ldi a b => [a, b]
  | .ld a b => [a, b]
  | .st a b => [a, b]
  | .add a b => [a, b]
  | .sub a b => [a, b]
  | .mul a b => [a, b]
  | .div a b => [a, b]
  | .mod a b => [a, b]
  | .cmp a b => [a, b]
  | .and a b => [a, b]
  | .or a b => [a, b]
  | .xor a b => [a, b]
  | .shl a b => [a, b]
  | .shr a b => [a, b]

/-- The bytes of an instruction: `[opcode]`, `[opcode, A]` or `[opcode, A, B]` (R79). -/
def encode (i : Instr) : List Byte := i.mnemonic.opcode :: i.operands

/-- The register a register-operand byte names, "with no shift, mask or offset"; none above 7 (R74). -/
def Reg.ofByte? (a : Byte) : Option Reg :=
  match a.toNat with
  | 0 => some .r0
  | 1 => some .r1
  | 2 => some .r2
  | 3 => some .r3
  | 4 => some .r4
  | 5 => some .r5
  | 6 => some .r6
  | 7 => some .r7
  | _ => none

/-- The operand byte of a register: `Rk` is the byte `k` (R74, R78). -/
def Reg.toByte : Reg → Byte
  | .r0 => 0#8
  | .r1 => 1#8
  | .r2 => 2#8
  | .r3 => 3#8
  | .r4 => 4#8
  | .r5 => 5#8
  | .r6 => 6#8
  | .r7 => 7#8

/-- The three bytes at the head of an instruction word numbered as opcode_table.json numbers it (bit 0
is the least significant bit of the first byte); the bits from `nbits` up are 0. -/
def wordBytes (nbits w : Nat) : List Byte :=
  let v := w % 2 ^ nbits
  [BitVec.ofNat 8 v, BitVec.ofNat 8 (v / 256), BitVec.ofNat 8 (v / 65536)]

/-- What the decoder reads from an instruction word of the opcode table. -/
def decodeTableWord (nbits w : Nat) : Option Instr :=
  match decode (wordBytes nbits w) with
  | .ok (i, _) => some i
  | .error _ => none

end Sys2Proof
end

