-- ==== Sys2Proof/Config.lean ====
section
/-! DEFINITION. The implementation parameters of 00_scope.md R5, with their defaults. -/

namespace Sys2Proof

/-- `FETCH_BOUND`: fetch is limited to the loaded image, or only to memory (R5, R101, D14). -/
inductive FetchBound where
  | image
  | memory
  deriving DecidableEq, Repr

/-- `STACK_LIMIT`: the lowest address the stack may occupy. The default is `IMG_END`, which is core
state (R27), so the parameter is either that name or an address (R5, R172, D11). -/
inductive StackLimit where
  | imgEnd
  | addr (a : Byte)
  deriving DecidableEq, Repr

/-- The parameters "a model takes" (R5). The sizes R5 marks *fixed (source)* are in the types. -/
structure Config where
  /-- `SP_INIT`: reset value of R7 and top of the stack region (D3). -/
  spInit : Byte
  /-- `LOAD_START`: load address and initial pc (D18). -/
  loadStart : Byte
  /-- `STACK_CHECK`: whether StackOverflow and StackUnderflow are checked (D11). -/
  stackCheck : Bool
  /-- `STACK_LIMIT` (D11). -/
  stackLimit : StackLimit
  /-- `FETCH_BOUND` (D14). -/
  fetchBound : FetchBound
  /-- `INT_VECTOR_BASE`: address of vector slot 0 (D7). -/
  intVectorBase : Byte
  /-- `INT_VECTOR_COUNT`: number of vector slots (D7). -/
  intVectorCount : Nat
  deriving DecidableEq, Repr

/-- The defaults of R5's table, which "every rule of this spec assumes". -/
def Config.default : Config where
  spInit := 0xF4#8
  loadStart := 0#8
  stackCheck := true
  stackLimit := .imgEnd
  fetchBound := .image
  intVectorBase := 0xF8#8
  intVectorCount := 8

/-- Every vector slot lies in memory: R52's "`INT_VECTOR_BASE + n` … always in 0..255", for parameters
other than the defaults. -/
def Config.vectorsInMemory (c : Config) : Prop :=
  c.intVectorBase.toNat + c.intVectorCount ≤ 256

end Sys2Proof
end

