-- ==== Sys2Proof/Machine/State.lean ====
section
/-! DEFINITION. The state of the core, plain data (10_state.md), its reset value (R32), and the reasons
a step of the model can stop. -/

namespace Sys2Proof.Machine

/-- The register file: eight byte registers (R20), one home each. -/
structure Regs where
  r0 : Byte
  r1 : Byte
  r2 : Byte
  r3 : Byte
  r4 : Byte
  r5 : Byte
  r6 : Byte
  r7 : Byte
  deriving DecidableEq, Repr

/-- The flags register: Equal, Greater-than, Less-than (R24). -/
structure Flags where
  e : Bool
  g : Bool
  l : Bool
  deriving DecidableEq, Repr

/-- The fault names of 60_exceptions.md R220, codes 1 to 8 in this order. -/
inductive FaultName where
  | unknownOpcode
  | programCounterOutOfBounds
  | divisionByZero
  | unsupportedAluOperation
  | stackOverflow
  | stackUnderflow
  | invalidRegisterIndex
  | invalidInterruptNumber
  deriving DecidableEq, Repr

/-- Why the core is halted: `Ok` after HLT, or a fault (R26, R220). -/
inductive HaltReason where
  | ok
  | fault (f : FaultName)
  deriving DecidableEq, Repr

/-- The run state (R26). -/
inductive RunState where
  | running
  | halted (reason : HaltReason)
  deriving DecidableEq, Repr

/-- The error record `{reason, addr, byte}` (R28). -/
structure ErrorRecord where
  reason : FaultName
  /-- The pc of the instruction whose step faulted, 0..256. -/
  addr : PcWord
  /-- The opcode byte fetched at `addr`, none when the opcode fetch itself faulted. -/
  byte : Option Byte
  deriving DecidableEq, Repr

/-- An output event: `Dec(v)` of PRN or `Chr(v)` of PRA (43_output.md R160). -/
inductive OutputEvent where
  | dec (v : Byte)
  | chr (v : Byte)
  deriving DecidableEq, Repr

/-- Memory: the cells that do not hold `Memory.unlisted`, by address (20_memory.md R50). The canonical
form is `Memory.wf` (Machine/Ops.lean). -/
abbrev Memory := List Host.Cell

/-- The state tuple of 10_state.md, and two fields of the model's own, which no step changes: `cfg`, the
parameters of 00_scope.md R5, and `loaded`, how far the run is in the sequence of 70_reset_and_hazards.md
R250. -/
structure State where
  /-- Parameters (R5); the model's own field. -/
  cfg : Config
  /-- Whether this run's one load has happened: "loading again requires a new reset" (R250, D25); the
  model's own field (log 8). -/
  loaded : Bool
  /-- R0..R7 (R20, R21). -/
  regs : Regs
  /-- Program counter, 0..256 (R23). -/
  pc : PcWord
  /-- Flags E, G, L (R24). -/
  flags : Flags
  /-- Run state (R26). -/
  status : RunState
  /-- `IMG_START`, 0..256 (R27). -/
  imgStart : Nat
  /-- `IMG_END`, 0..256 (R27). -/
  imgEnd : Nat
  /-- Memory M (R50). -/
  mem : Memory
  /-- Error record (R28). -/
  err : Option ErrorRecord
  /-- Output stream, oldest first (R29). -/
  out : List OutputEvent
  deriving DecidableEq, Repr

/-- Reset of a core with parameters `cfg` (R32, 70_reset_and_hazards.md R250 step 1): every cell 0,
R0..R6 = 0, R7 = `SP_INIT`, pc = `LOAD_START`, flags 000, err none, out empty. The image extent and the
status are those of R32 with an image of length 0 (log 2). -/
def State.resetWith (cfg : Config) : State where
  cfg := cfg
  loaded := false
  regs := { r0 := 0, r1 := 0, r2 := 0, r3 := 0, r4 := 0, r5 := 0, r6 := 0, r7 := cfg.spInit }
  pc := cfg.loadStart.zeroExtend 9
  flags := { e := false, g := false, l := false }
  status := .running
  imgStart := cfg.loadStart.toNat
  imgEnd := cfg.loadStart.toNat
  mem := []
  err := none
  out := []

/-- The machine right after reset, with the default parameters of R5. -/
def State.reset : State := State.resetWith Config.default

/-- Why a step of the model stops. -/
inductive Fault where
  /-- Raised by `step` alone, on a state that is Halted: "A core in `Halted(_)` has no step" (40_engine.md
  R100). Safe: the hardware does nothing there either. -/
  | coreHalted
  deriving DecidableEq, Repr

/-- Why the model gives no meaning. -/
inductive Refusal where
  /-- Raised by an arm of `exec` whose instruction has no meaning yet; no arm raises it. Safe. -/
  | notModelled (mnemonic : String)
  deriving DecidableEq, Repr

/-- Why the load interface turns an image away (20_memory.md R56); reported to the host, no run fault. -/
inductive LoadError where
  /-- The core is not in its reset state: this run has had its load, or has stepped (R56 "require",
  R250, D25). -/
  | notReset
  /-- The image does not fit: `LOAD_START + len > 256` (R56, D18). -/
  | loadOverflow
  deriving DecidableEq, Repr

end Sys2Proof.Machine
end

