-- ==== Sys2Proof/Machine/Flags.lean ====
section
/-! DEFINITION. The flags: what CMP computes (41_alu.md R133), the stacked byte image (10_state.md R25),
and the conditions of the conditional jumps (45_control.md R183-R189). -/

namespace Sys2Proof.Machine

/-- CMP's flags: E iff a = b, G iff a > b, L iff a < b, unsigned (R133). -/
def Flags.compare (a b : Byte) : Flags where
  e := decide (a.toNat = b.toNat)
  g := decide (a.toNat > b.toNat)
  l := decide (a.toNat < b.toNat)

/-- `FLbyte = 0b00000 ++ L ++ G ++ E` (R25). -/
def Flags.toByte (f : Flags) : Byte :=
  BitVec.ofNat 8 (4 * f.l.toNat + 2 * f.g.toNat + f.e.toNat)

/-- The flags restored from a stacked byte: bit 0 = E, bit 1 = G, bit 2 = L, bits 7:3 ignored (R25). -/
def Flags.ofByte (v : Byte) : Flags where
  e := v.getLsbD 0
  g := v.getLsbD 1
  l := v.getLsbD 2

/-- JEQ: `E` (R183). -/
def Flags.condJeq (f : Flags) : Bool := f.e

/-- JNE: `not E` (R184). -/
def Flags.condJne (f : Flags) : Bool := !f.e

/-- JGT: `G` (R185). -/
def Flags.condJgt (f : Flags) : Bool := f.g

/-- JLT: `L` (R186). -/
def Flags.condJlt (f : Flags) : Bool := f.l

/-- JGE: `G or E` (R187). -/
def Flags.condJge (f : Flags) : Bool := f.g || f.e

/-- JLE: `L or E` (R188). -/
def Flags.condJle (f : Flags) : Bool := f.l || f.e

end Sys2Proof.Machine
end

