-- ==== Sys2Proof/Machine/Ops.lean ====
section
/-! DEFINITION. The shared operations: memory, registers, pc, output, fault entry, the stack primitives,
and the entry into and return from a software interrupt. -/

namespace Sys2Proof.Machine

/-! ### Arithmetic -/

/-- `trunc8(v) = v mod 256`, for any integer, negative ones included (00_scope.md R7). -/
def trunc8 (v : Int) : Byte := BitVec.ofInt 8 v

/-! ### Memory (20_memory.md R50, R51) -/

/-- What a cell that nothing has written holds: memory is "zero-initialized" (R50, 10_state.md R32). -/
def Memory.unlisted : Byte := 0

/-- The canonical form: addresses strictly rising and in 0..255, no entry equal to `Memory.unlisted`. -/
abbrev Memory.wf (m : Memory) : Prop :=
  m.Pairwise (fun c d => c.1 < d.1) ∧ ∀ c ∈ m, c.1 < 256 ∧ c.2 ≠ Memory.unlisted

/-- `MemRead(a, 1)` (00_scope.md R8). -/
def Memory.read : Memory → Byte → Byte
  | [], _ => Memory.unlisted
  | c :: m, a => if c.1 = a.toNat then c.2 else Memory.read m a

/-- Memory without any entry at address `k`. -/
def Memory.dropCell (m : Memory) (k : Nat) : Memory := m.filter (fun c => c.1 != k)

/-- Put an entry before the first one with a higher address. -/
def Memory.putCell : Memory → Nat → Byte → Memory
  | [], k, v => [(k, v)]
  | c :: m, k, v => if k < c.1 then (k, v) :: c :: m else c :: Memory.putCell m k v

/-- `MemWrite(a, 1, v)` (R8); keeps the canonical form. -/
def Memory.write (m : Memory) (a v : Byte) : Memory :=
  if v = Memory.unlisted then m.dropCell a.toNat else (m.dropCell a.toNat).putCell a.toNat v

/-- Write bytes at ascending addresses from `a`; a byte past address 255 has no cell and is not stored. -/
def Memory.writeBytes (m : Memory) (a : Nat) : List Byte → Memory
  | [] => m
  | v :: vs =>
    Memory.writeBytes (if a ≤ 255 then m.write (BitVec.ofNat 8 a) v else m) (a + 1) vs

/-- Read a cell of the state's memory. -/
def State.readMem (s : State) (a : Byte) : Byte := s.mem.read a

/-- Write a cell of the state's memory. -/
def State.writeMem (s : State) (a v : Byte) : State := { s with mem := s.mem.write a v }

/-! ### Registers (10_state.md R20) -/

/-- The register file's value at a register. -/
def Regs.get (f : Regs) : Reg → Byte
  | .r0 => f.r0
  | .r1 => f.r1
  | .r2 => f.r2
  | .r3 => f.r3
  | .r4 => f.r4
  | .r5 => f.r5
  | .r6 => f.r6
  | .r7 => f.r7

/-- The register file with one register replaced. -/
def Regs.set (f : Regs) (r : Reg) (v : Byte) : Regs :=
  match r with
  | .r0 => { f with r0 := v }
  | .r1 => { f with r1 := v }
  | .r2 => { f with r2 := v }
  | .r3 => { f with r3 := v }
  | .r4 => { f with r4 := v }
  | .r5 => { f with r5 := v }
  | .r6 => { f with r6 := v }
  | .r7 => { f with r7 := v }

/-- `R[i]` (00_scope.md R8). -/
def State.readReg (s : State) (r : Reg) : Byte := s.regs.get r

/-- `R[i] <- v` (R8). No register is hardwired (R20). -/
def State.writeReg (s : State) (r : Reg) (v : Byte) : State := { s with regs := s.regs.set r v }

/-! ### pc, flags, output -/

/-- The sequential next pc `a + 1 + n` of an instruction with `n` operand bytes (40_engine.md R102, R104). -/
def State.seq (s : State) (n : Nat) : PcWord := BitVec.ofNat 9 (s.pc.toNat + 1 + n)

/-- `pc <- target` (R8). -/
def State.setPc (s : State) (target : PcWord) : State := { s with pc := target }

/-- The sequential advance past an instruction with `n` operand bytes (R104, R105). -/
def State.advance (s : State) (n : Nat) : State := s.setPc (s.seq n)

/-- A direct target: a byte value, 0..255, never incremented (R104, R105). -/
def State.jump (s : State) (target : Byte) : State := s.setPc (target.zeroExtend 9)

/-- Write the three flags. -/
def State.setFlags (s : State) (f : Flags) : State := { s with flags := f }

/-- `emit(ev)`: append an event to the output stream (43_output.md R160). -/
def State.emit (s : State) (ev : OutputEvent) : State := { s with out := s.out ++ [ev] }

/-- Enter `Halted(reason)` (10_state.md R26). -/
def State.halt (s : State) (reason : HaltReason) : State := { s with status := .halted reason }

/-! ### Fault entry (60_exceptions.md R221) -/

/-- Fault entry: nothing of the faulting instruction is committed, `status <- Halted(F)`,
`err <- {reason, pc, byte}` (R221). `s` is the state before the step. -/
def State.raise (s : State) (f : FaultName) (byte : Option Byte) : State :=
  { s.halt (.fault f) with err := some { reason := f, addr := s.pc, byte := byte } }

/-- The outcome of an instruction of mnemonic `m` that raises `f` (R102 records its opcode byte). -/
def raiseIn (m : Mnemonic) (f : FaultName) (s : State) : Host.Outcome State Fault Refusal :=
  .next (s.raise f (some m.opcode))

/-- Commit an instruction's effects, or enter the fault it raised from the state before it. -/
def commit (m : Mnemonic) (s : State) (r : Except FaultName State) :
    Host.Outcome State Fault Refusal :=
  match r with
  | .ok t => .next t
  | .error f => raiseIn m f s

/-! ### The stack (44_stack.md) -/

/-- The value of `STACK_LIMIT` (R172): the end of the loaded image by default. -/
def State.stackLimit (s : State) : Nat :=
  match s.cfg.stackLimit with
  | .imgEnd => s.imgEnd
  | .addr a => a.toNat

/-- A push is legal iff `STACK_LIMIT + 1 <= R[7] <= SP_INIT`, or the check is off (R172, R173). -/
def State.pushLegal (s : State) : Bool :=
  !s.cfg.stackCheck ||
    decide (s.stackLimit + 1 ≤ (s.readReg .r7).toNat ∧ (s.readReg .r7).toNat ≤ s.cfg.spInit.toNat)

/-- A pop is legal iff `STACK_LIMIT <= R[7] <= SP_INIT - 1`, or the check is off (R172, R173). -/
def State.popLegal (s : State) : Bool :=
  !s.cfg.stackCheck ||
    decide (s.stackLimit ≤ (s.readReg .r7).toNat ∧ (s.readReg .r7).toNat + 1 ≤ s.cfg.spInit.toNat)

/-- `R[7] <- trunc8(R[7] - 1)`. -/
def State.decSp (s : State) : State := s.writeReg .r7 (trunc8 ((s.readReg .r7).toNat - 1))

/-- `R[7] <- trunc8(R[7] + 1)`. -/
def State.incSp (s : State) : State := s.writeReg .r7 (trunc8 ((s.readReg .r7).toNat + 1))

/-- `push8(e)`; `e` is evaluated after the decrement (R170). -/
def push8 (e : State → Byte) (s : State) : Except FaultName State :=
  if s.pushLegal then
    let t := s.decSp
    .ok (t.writeMem (t.readReg .r7) (e t))
  else
    .error .stackOverflow

/-- `pop8()`: the popped byte and the state after it (R171). -/
def pop8 (s : State) : Except FaultName (Byte × State) :=
  if s.popLegal then
    .ok (s.readMem (s.readReg .r7), s.incSp)
  else
    .error .stackUnderflow

/-- `popreg(i)`: the increment reads R7 after the register write (R171). -/
def popReg (i : Reg) (s : State) : Except FaultName State :=
  if s.popLegal then
    .ok (s.writeReg i (s.readMem (s.readReg .r7))).incSp
  else
    .error .stackUnderflow

/-- Push several bytes, the first of the list first. -/
def pushAll : List (State → Byte) → State → Except FaultName State
  | [], s => .ok s
  | e :: es, s =>
    match push8 e s with
    | .ok t => pushAll es t
    | .error f => .error f

/-- Pop into several registers, the first of the list first. -/
def popRegs : List Reg → State → Except FaultName State
  | [], s => .ok s
  | i :: is, s =>
    match popReg i s with
    | .ok t => popRegs is t
    | .error f => .error f

/-! ### Entry into and return from a software interrupt (46_interrupt.md, 60_exceptions.md R231) -/

/-- What INT pushes, in order: `FLbyte`, the return address, R0..R7 (R200, R203). -/
def interruptFrame (ret : Byte) : List (State → Byte) :=
  (fun t => t.flags.toByte) :: (fun _ => ret) ::
    [Reg.r0, .r1, .r2, .r3, .r4, .r5, .r6, .r7].map (fun r t => t.readReg r)

/-- `MemRead(INT_VECTOR_BASE + n, 1)`; no cell past address 255 (R52, log 5). -/
def State.readVector (s : State) (n : Byte) : Option Byte :=
  let a := s.cfg.intVectorBase.toNat + n.toNat
  if a ≤ 255 then some (s.readMem (BitVec.ofNat 8 a)) else none

/-- Interrupt entry: push the frame, then go to the handler address, read after the pushes (R200). -/
def interruptEntry (n ret : Byte) (s : State) : Except FaultName State :=
  match pushAll (interruptFrame ret) s with
  | .error f => .error f
  | .ok t =>
    match t.readVector n with
    | none => .error .programCounterOutOfBounds
    | some handler => .ok (t.jump handler)

/-- Interrupt return: pop R7, R6, …, R0 with `popreg`, then the pc, then the flags byte (R201). -/
def interruptReturn (s : State) : Except FaultName State :=
  match popRegs [.r7, .r6, .r5, .r4, .r3, .r2, .r1, .r0] s with
  | .error f => .error f
  | .ok t =>
    match pop8 t with
    | .error f => .error f
    | .ok (target, t) =>
      match pop8 t with
      | .error f => .error f
      | .ok (v, t) => .ok ((t.setFlags (Flags.ofByte v)).jump target)

/-! ### Codes of the halt reasons (60_exceptions.md R220) -/

/-- The numeric code of a fault name (R220). -/
def FaultName.code : FaultName → Nat
  | .unknownOpcode => 1
  | .programCounterOutOfBounds => 2
  | .divisionByZero => 3
  | .unsupportedAluOperation => 4
  | .stackOverflow => 5
  | .stackUnderflow => 6
  | .invalidRegisterIndex => 7
  | .invalidInterruptNumber => 8

/-- The numeric code of a halt reason; `Ok` is 0 (R220). -/
def HaltReason.code : HaltReason → Nat
  | .ok => 0
  | .fault f => f.code

end Sys2Proof.Machine
end

