-- ==== Sys2Proof/Machine/Operands.lean ====
section
/-! DEFINITION. The operand forms: a register operand, two register operands (40_engine.md R103,
30_encoding.md R74). The immediate of LDI is its byte, with no check (R75). -/

namespace Sys2Proof.Machine

/-- Run `k` on the register that operand byte `a` names; a byte above 7 raises InvalidRegisterIndex
before any effect (R74, R103). -/
def withReg (m : Mnemonic) (a : Byte) (s : State) (k : Reg → Host.Outcome State Fault Refusal) :
    Host.Outcome State Fault Refusal :=
  match Reg.ofByte? a with
  | some r => k r
  | none => raiseIn m .invalidRegisterIndex s

/-- Two register operands; "Operand A is checked first, then operand B" (R103). -/
def withRegs (m : Mnemonic) (a b : Byte) (s : State)
    (k : Reg → Reg → Host.Outcome State Fault Refusal) : Host.Outcome State Fault Refusal :=
  withReg m a s fun ra => withReg m b s fun rb => k ra rb

end Sys2Proof.Machine
end

