-- ==== Sys2Proof/Machine/Alu.lean ====
section
/-! DEFINITION. The 14 ALU instructions (41_alu.md): compute exactly on the integers, then reduce with
`trunc8` (R134). None but CMP writes a flag (R135); none writes memory, output or R7 implicitly (R107). -/

namespace Sys2Proof.Machine

/-! ### The computations -/

/-- R120. -/
def aluAdd (x y : Byte) : Byte := trunc8 (x.toNat + y.toNat)

/-- R121. -/
def aluSub (x y : Byte) : Byte := trunc8 (x.toNat - y.toNat)

/-- R122. -/
def aluMul (x y : Byte) : Byte := trunc8 (x.toNat * y.toNat)

/-- The unsigned quotient, floor; the divisor is not 0 (R123). -/
def aluDiv (x y : Byte) : Byte := BitVec.ofNat 8 (x.toNat / y.toNat)

/-- The unsigned remainder `x - y * floor(x / y)`; the divisor is not 0 (R124). -/
def aluMod (x y : Byte) : Byte := trunc8 (x.toNat - y.toNat * (x.toNat / y.toNat))

/-- R125. -/
def aluAnd (x y : Byte) : Byte := x &&& y

/-- R126. -/
def aluOr (x y : Byte) : Byte := x ||| y

/-- R127. -/
def aluXor (x y : Byte) : Byte := x ^^^ y

/-- `trunc8(x * 2^y)`, the count being the whole byte (R128). -/
def aluShl (x y : Byte) : Byte := trunc8 (x.toNat * 2 ^ y.toNat)

/-- `floor(x / 2^y)`, the count being the whole byte (R129). -/
def aluShr (x y : Byte) : Byte := BitVec.ofNat 8 (x.toNat / 2 ^ y.toNat)

/-- `255 - x` (R130). -/
def aluNot (x : Byte) : Byte := trunc8 (255 - x.toNat)

/-- R131. -/
def aluInc (x : Byte) : Byte := trunc8 (x.toNat + 1)

/-- R132. -/
def aluDec (x : Byte) : Byte := trunc8 (x.toNat - 1)

/-! ### The shapes -/

/-- `OP ra, rb`: read both, write the first, next is sequential (R134, R136, R104). -/
def aluBinary (m : Mnemonic) (f : Byte → Byte → Byte) (a b : Byte) (s : State) :
    Host.Outcome State Fault Refusal :=
  withRegs m a b s fun ra rb =>
    .next ((s.writeReg ra (f (s.readReg ra) (s.readReg rb))).advance 2)

/-- As `aluBinary`, but a zero divisor raises DivisionByZero before any write (R123, R124, R224). -/
def aluDivide (m : Mnemonic) (f : Byte → Byte → Byte) (a b : Byte) (s : State) :
    Host.Outcome State Fault Refusal :=
  withRegs m a b s fun ra rb =>
    if s.readReg rb = 0 then raiseIn m .divisionByZero s
    else .next ((s.writeReg ra (f (s.readReg ra) (s.readReg rb))).advance 2)

/-- `OP ra`: read and write one register (R134). -/
def aluUnary (m : Mnemonic) (f : Byte → Byte) (a : Byte) (s : State) :
    Host.Outcome State Fault Refusal :=
  withReg m a s fun ra => .next ((s.writeReg ra (f (s.readReg ra))).advance 1)

/-! ### The instructions -/

/-- ADD (R120). -/
def execAdd (a b : Byte) (s : State) : Host.Outcome State Fault Refusal := aluBinary .add aluAdd a b s

/-- SUB (R121). -/
def execSub (a b : Byte) (s : State) : Host.Outcome State Fault Refusal := aluBinary .sub aluSub a b s

/-- MUL (R122). -/
def execMul (a b : Byte) (s : State) : Host.Outcome State Fault Refusal := aluBinary .mul aluMul a b s

/-- DIV (R123). -/
def execDiv (a b : Byte) (s : State) : Host.Outcome State Fault Refusal := aluDivide .div aluDiv a b s

/-- MOD (R124). -/
def execMod (a b : Byte) (s : State) : Host.Outcome State Fault Refusal := aluDivide .mod aluMod a b s

/-- AND (R125). -/
def execAnd (a b : Byte) (s : State) : Host.Outcome State Fault Refusal := aluBinary .and aluAnd a b s

/-- OR (R126). -/
def execOr (a b : Byte) (s : State) : Host.Outcome State Fault Refusal := aluBinary .or aluOr a b s

/-- XOR (R127). -/
def execXor (a b : Byte) (s : State) : Host.Outcome State Fault Refusal := aluBinary .xor aluXor a b s

/-- SHL (R128). -/
def execShl (a b : Byte) (s : State) : Host.Outcome State Fault Refusal := aluBinary .shl aluShl a b s

/-- SHR (R129). -/
def execShr (a b : Byte) (s : State) : Host.Outcome State Fault Refusal := aluBinary .shr aluShr a b s

/-- NOT (R130). -/
def execNot (a : Byte) (s : State) : Host.Outcome State Fault Refusal := aluUnary .not aluNot a s

/-- INC (R131). -/
def execInc (a : Byte) (s : State) : Host.Outcome State Fault Refusal := aluUnary .inc aluInc a s

/-- DEC (R132). -/
def execDec (a : Byte) (s : State) : Host.Outcome State Fault Refusal := aluUnary .dec aluDec a s

/-- CMP: writes the three flags and no register (R133). -/
def execCmp (a b : Byte) (s : State) : Host.Outcome State Fault Refusal :=
  withRegs .cmp a b s fun ra rb =>
    .next ((s.setFlags (Flags.compare (s.readReg ra) (s.readReg rb))).advance 2)

end Sys2Proof.Machine
end

