-- ==== Sys2Proof/Machine/Control.lean ====
section
/-! DEFINITION. NOP (40_engine.md R106) and control transfer (45_control.md). Targets are not checked
here; the fetch of the next step checks them. -/

namespace Sys2Proof.Machine

/-- NOP: "advance pc by 1 only" (R106). -/
def execNop (s : State) : Host.Outcome State Fault Refusal := .next (s.advance 0)

/-- HLT: `status <- Halted(Ok)`, pc stays at the HLT (R190). -/
def execHlt (s : State) : Host.Outcome State Fault Refusal := .next (s.halt .ok)

/-- Run `k` on the return address `pc + 2`, which must fit in a byte; 256 raises
ProgramCounterOutOfBounds (R180, R200, D27). -/
def withReturnAddress (m : Mnemonic) (s : State)
    (k : Byte → Host.Outcome State Fault Refusal) : Host.Outcome State Fault Refusal :=
  if s.pc.toNat + 2 > 255 then raiseIn m .programCounterOutOfBounds s
  else k (BitVec.ofNat 8 (s.pc.toNat + 2))

/-- CALL: push the return address, then jump to `R[ra]`, read after the push (R180). -/
def execCall (a : Byte) (s : State) : Host.Outcome State Fault Refusal :=
  withReg .call a s fun ra =>
    withReturnAddress .call s fun ret =>
      commit .call s ((push8 (fun _ => ret) s).map fun t => t.jump (t.readReg ra))

/-- RET: `next <- pop8()` (R181). -/
def execRet (s : State) : Host.Outcome State Fault Refusal :=
  commit .ret s ((pop8 s).map fun p => p.2.jump p.1)

/-- JMP (R182). -/
def execJmp (a : Byte) (s : State) : Host.Outcome State Fault Refusal :=
  withReg .jmp a s fun ra => .next (s.jump (s.readReg ra))

/-- "if cond(FL) then next <- R[ra] else next <- pc + 2"; the operand is checked either way (R189). -/
def jumpIf (m : Mnemonic) (cond : Flags → Bool) (a : Byte) (s : State) :
    Host.Outcome State Fault Refusal :=
  withReg m a s fun ra => .next (if cond s.flags then s.jump (s.readReg ra) else s.advance 1)

/-- JEQ (R183). -/
def execJeq (a : Byte) (s : State) : Host.Outcome State Fault Refusal := jumpIf .jeq Flags.condJeq a s

/-- JNE (R184). -/
def execJne (a : Byte) (s : State) : Host.Outcome State Fault Refusal := jumpIf .jne Flags.condJne a s

/-- JGT (R185). -/
def execJgt (a : Byte) (s : State) : Host.Outcome State Fault Refusal := jumpIf .jgt Flags.condJgt a s

/-- JLT (R186). -/
def execJlt (a : Byte) (s : State) : Host.Outcome State Fault Refusal := jumpIf .jlt Flags.condJlt a s

/-- JLE (R188). -/
def execJle (a : Byte) (s : State) : Host.Outcome State Fault Refusal := jumpIf .jle Flags.condJle a s

/-- JGE (R187). -/
def execJge (a : Byte) (s : State) : Host.Outcome State Fault Refusal := jumpIf .jge Flags.condJge a s

end Sys2Proof.Machine
end

