-- ==== Sys2Proof/Machine/Interrupt.lean ====
section
/-! DEFINITION. INT and IRET (46_interrupt.md). -/

namespace Sys2Proof.Machine

/-- INT: the number `R[ra]` is read first; then the checks in the order of 60_exceptions.md R230
(number, return address, pushes); then the entry (R200). -/
def execInt (a : Byte) (s : State) : Host.Outcome State Fault Refusal :=
  withReg .int a s fun ra =>
    if (s.readReg ra).toNat ≥ s.cfg.intVectorCount then raiseIn .int .invalidInterruptNumber s
    else withReturnAddress .int s fun ret => commit .int s (interruptEntry (s.readReg ra) ret s)

/-- IRET (R201). -/
def execIret (s : State) : Host.Outcome State Fault Refusal := commit .iret s (interruptReturn s)

end Sys2Proof.Machine
end

