-- ==== Sys2Proof/Machine/LoadStore.lean ====
section
/-! DEFINITION. LDI, LD, ST (42_load_store.md). One addressing mode, register indirect: the address is
the full 8-bit value of a register. -/

namespace Sys2Proof.Machine

/-- LDI: the immediate is any byte, used as is (R150, R75). -/
def execLdi (a imm : Byte) (s : State) : Host.Outcome State Fault Refusal :=
  withReg .ldi a s fun ra => .next ((s.writeReg ra imm).advance 2)

/-- LD: `R[ra] <- MemRead(R[rb], 1)`; the fetch bound does not apply (R151). -/
def execLd (a b : Byte) (s : State) : Host.Outcome State Fault Refusal :=
  withRegs .ld a b s fun ra rb => .next ((s.writeReg ra (s.readMem (s.readReg rb))).advance 2)

/-- ST: `MemWrite(R[ra], 1, R[rb])`; "The address register comes first" (R152). -/
def execSt (a b : Byte) (s : State) : Host.Outcome State Fault Refusal :=
  withRegs .st a b s fun ra rb => .next ((s.writeMem (s.readReg ra) (s.readReg rb)).advance 2)

end Sys2Proof.Machine
end

