-- ==== Sys2Proof/Machine/Output.lean ====
section
/-! DEFINITION. PRN and PRA, and the host's rendering of an event as text (43_output.md). -/

namespace Sys2Proof.Machine

/-- PRN: `emit(Dec(R[ra]))` (R161). -/
def execPrn (a : Byte) (s : State) : Host.Outcome State Fault Refusal :=
  withReg .prn a s fun ra => .next ((s.emit (.dec (s.readReg ra))).advance 1)

/-- PRA: `emit(Chr(R[ra]))` (R162). -/
def execPra (a : Byte) (s : State) : Host.Outcome State Fault Refusal :=
  withReg .pra a s fun ra => .next ((s.emit (.chr (s.readReg ra))).advance 1)

/-- One decimal digit. -/
def decimalDigit (d : Nat) : Char := Char.ofNat (48 + d % 10)

/-- The unsigned decimal digits of a byte: no sign, no leading zeros, no padding (R160). -/
def decimalDigits (v : Byte) : List Char :=
  let n := v.toNat
  if n < 10 then [decimalDigit n]
  else if n < 100 then [decimalDigit (n / 10), decimalDigit n]
  else [decimalDigit (n / 100), decimalDigit (n / 10), decimalDigit n]

/-- PRN's line terminator: LF, 0x0A (R160). -/
def lineTerminator : Char := Char.ofNat 10

/-- How the host renders an event (R160): `Dec(v)` its digits and the terminator, `Chr(v)` the one
character with code point `v`. -/
def OutputEvent.render : OutputEvent → List Char
  | .dec v => decimalDigits v ++ [lineTerminator]
  | .chr v => [Char.ofNat v.toNat]

/-- The text of an output stream, oldest event first. -/
def renderAll : List OutputEvent → List Char
  | [] => []
  | ev :: evs => ev.render ++ renderAll evs

end Sys2Proof.Machine
end

