-- ==== Sys2Proof/Machine/Stack.lean ====
section
/-! DEFINITION. PUSH and POP (44_stack.md). -/

namespace Sys2Proof.Machine

/-- PUSH: `push8(R[ra])`, the register read after the decrement (R174). -/
def execPush (a : Byte) (s : State) : Host.Outcome State Fault Refusal :=
  withReg .push a s fun ra =>
    commit .push s ((push8 (fun t => t.readReg ra) s).map fun t => t.advance 1)

/-- POP: `popreg(ra)` (R175). -/
def execPop (a : Byte) (s : State) : Host.Outcome State Fault Refusal :=
  withReg .pop a s fun ra => commit .pop s ((popReg ra s).map fun t => t.advance 1)

end Sys2Proof.Machine
end

