-- ==== Sys2Proof/Machine/Fetch.lean ====
section
/-! DEFINITION. Instruction fetch and its checks (40_engine.md R101, R102), and where `withFetchWord`
puts a word. -/

namespace Sys2Proof.Machine

/-- `Fetch(addr)`: `none` is ProgramCounterOutOfBounds (R101). -/
def State.fetch (s : State) (addr : Nat) : Option Byte :=
  if addr > 255 then none
  else if s.cfg.fetchBound = .image ∧ ¬(s.imgStart ≤ addr ∧ addr < s.imgEnd) then none
  else some (s.readMem (BitVec.ofNat 8 addr))

/-- Fetch `n` bytes at ascending addresses; `none` if any fetch faults. -/
def State.fetchBytes (s : State) (addr : Nat) : Nat → Option (List Byte)
  | 0 => some []
  | n + 1 =>
    match s.fetch addr, s.fetchBytes (addr + 1) n with
    | some v, some vs => some (v :: vs)
    | _, _ => none

/-- Fetch and decode the instruction at the pc in R102's order: opcode, table, operand bytes. A fault
comes with the byte its record holds (R28, 60_exceptions.md R230 steps 1-3). -/
def State.fetchInstr (s : State) : Except (FaultName × Option Byte) Instr :=
  match s.fetch s.pc.toNat with
  | none => .error (.programCounterOutOfBounds, none)
  | some op =>
    match lookupOpcode op with
    | none => .error (.unknownOpcode, some op)
    | some row =>
      match s.fetchBytes (s.pc.toNat + 1) row.operandCount with
      | none => .error (.programCounterOutOfBounds, some op)
      | some operands => .ok (row.mnemonic.instr (operands.getD 0 0) (operands.getD 1 0))

/-- Store an instruction word at the pc as a load would put it there: its three bytes in memory, the
image extent stretched over them, the core Running (log 3). -/
def State.placeWord (s : State) (nbits w : Nat) : State :=
  let a := s.pc.toNat
  { s with
    mem := s.mem.writeBytes a (wordBytes nbits w)
    imgStart := min s.imgStart a
    imgEnd := max s.imgEnd (min 256 (a + 3))
    status := .running }

end Sys2Proof.Machine
end

