-- ==== Sys2Proof/Machine/Step.lean ====
section
/-! DEFINITION. One step (40_engine.md R100, R102). -/

namespace Sys2Proof.Machine

/-- One step: none in `Halted` (R100); else fetch and decode, then the instruction's meaning. A fetch
or decode fault enters `Halted(F)` (60_exceptions.md R221). -/
def step (s : State) : Host.Outcome State Fault Refusal :=
  match s.status with
  | .halted _ => .fault .coreHalted
  | .running =>
    match s.fetchInstr with
    | .error (f, byte) => .next (s.raise f byte)
    | .ok i => exec i s

/-- `s` with an instruction word stored where `step` fetches next. -/
def State.withFetchWord (s : State) (nbits w : Nat) : State := s.placeWord nbits w

end Sys2Proof.Machine
end

