-- ==== Sys2Proof/Machine/Load.lean ====
section
/-! DEFINITION. The host's reset and program load (20_memory.md R56, 70_reset_and_hazards.md R250, R255). -/

namespace Sys2Proof.Machine

/-- The host asserts reset, at any time: every piece of state goes to its value of R32, with the same
parameters, and no state survives (R250, R255). -/
def State.assertReset (s : State) : State := State.resetWith s.cfg

/-- Load an image at `LOAD_START`: only from the reset state, so once after each reset (R56, R250, D25);
refused if it does not fit; then the bytes, the image extent, the pc and the run state (R56), and the
run has had its load (log 8). -/
def State.load (s : State) (image : List Byte) : Except LoadError State :=
  if s ≠ State.resetWith s.cfg then .error .notReset
  else if s.cfg.loadStart.toNat + image.length > 256 then .error .loadOverflow
  else .ok { s with
    loaded := true
    mem := s.mem.writeBytes s.cfg.loadStart.toNat image
    imgStart := s.cfg.loadStart.toNat
    imgEnd := s.cfg.loadStart.toNat + image.length
    pc := s.cfg.loadStart.zeroExtend 9
    status := .running }

end Sys2Proof.Machine
end

