-- ==== Sys2Proof/Safety.lean ====
section
/-! DEFINITION. The terms claims are stated in: what an instruction leaves unchanged, what halting with
a fault means, the invariant of the machine, how a run ends (70_reset_and_hazards.md R256). -/

namespace Sys2Proof.Machine

/-- An outcome of the machine. -/
abbrev Result := Host.Outcome State Fault Refusal

/-! ### Frames -/

/-- Every register outside `ws` holds what it held. -/
def KeepsRegsBut (ws : List Reg) (s t : State) : Prop := ∀ r, r ∉ ws → t.readReg r = s.readReg r

/-- Every byte of memory outside `as` reads as before. -/
def KeepsMemBut (as : List Byte) (s t : State) : Prop := ∀ x, x ∉ as → t.readMem x = s.readMem x

/-- The run state, error record, image extent, parameters and load mark are unchanged: what no
instruction but HLT and a fault touches (10_state.md R26-R28). -/
structure KeepsRun (s t : State) : Prop where
  status : t.status = s.status
  err : t.err = s.err
  imgStart : t.imgStart = s.imgStart
  imgEnd : t.imgEnd = s.imgEnd
  cfg : t.cfg = s.cfg
  loaded : t.loaded = s.loaded

/-- The frame of one instruction: only registers in `ws` and memory bytes in `as` may change; flags,
output, run state, error record, image extent, parameters and load mark stay. -/
structure Frame (ws : List Reg) (as : List Byte) (s t : State) : Prop where
  regs : KeepsRegsBut ws s t
  mem : KeepsMemBut as s t
  flags : t.flags = s.flags
  out : t.out = s.out
  run : KeepsRun s t

/-! ### Outcomes -/

/-- The outcome is a next state that is Halted with fault `f` and holds the record of R28 and R221:
reason, address of the faulting instruction, opcode byte (none if its fetch faulted). It says nothing of
registers, memory or output after the fault (92_eei_decisions.md D15). -/
def FaultsWith (f : FaultName) (byte : Option Byte) (s : State) (o : Result) : Prop :=
  ∃ t, o = .next t ∧ t.status = .halted (.fault f) ∧ t.err = some { reason := f, addr := s.pc, byte := byte }

/-- The run has ended (R256). -/
def State.Ended (s : State) : Prop := ∃ reason, s.status = .halted reason

/-- The run ended in success: HLT was executed (R256, R190). -/
def State.Succeeded (s : State) : Prop := s.status = .halted .ok

/-- The run ended with a fault (R256). -/
def State.Failed (s : State) : Prop := ∃ f, s.status = .halted (.fault f)

/-! ### The invariant -/

/-- What 10_state.md says of every state: memory in canonical form; pc in 0..256 (R23);
`0 <= IMG_START <= IMG_END <= 256` (R27); err is none while Running and after HLT, and after a fault its
reason is the halt reason and its address in 0..256 (R28). -/
structure Inv (s : State) : Prop where
  mem : s.mem.wf
  pc : s.pc.toNat ≤ 256
  image : s.imgStart ≤ s.imgEnd ∧ s.imgEnd ≤ 256
  running : s.status = .running → s.err = none
  succeeded : s.status = .halted .ok → s.err = none
  failed : ∀ f, s.status = .halted (.fault f) →
    ∃ r, s.err = some r ∧ r.reason = f ∧ r.addr.toNat ≤ 256

/-! ### Runs -/

/-- `t` is a state that steps from `s` can reach. -/
inductive Reaches : State → State → Prop where
  | refl (s : State) : Reaches s s
  | step {s t u : State} : Reaches s t → Machine.step t = .next u → Reaches s u

/-- `t` is a state of some run: reset with some parameters, one load, then steps (R250). -/
def Reachable (t : State) : Prop :=
  ∃ (cfg : Config) (image : List Byte) (s : State),
    (State.resetWith cfg).load image = .ok s ∧ Reaches s t

end Sys2Proof.Machine
end

