-- ==== Sys2Proof/Certificates/Slice0/Obligations.lean ====
section
/-! DEFINITION. The statements for the provers. A register operand is written as the operand byte of a
register (`ra.toByte`), which is every byte from 0 to 7 (RegisterOperandAboveSevenFaults says so). -/

namespace Sys2Proof.Machine

/-- The opcode map of R72: opcode byte, mnemonic, operand count, is-ALU. -/
def opcodeMap : List (Byte × Mnemonic × Nat × Bool) :=
    [(0x00, .nop, 0, false), (0x01, .hlt, 0, false), (0x11, .ret, 0, false)] ++
    [(0x13, .iret, 0, false), (0x45, .push, 1, false), (0x46, .pop, 1, false)] ++
    [(0x47, .prn, 1, false), (0x48, .pra, 1, false), (0x50, .call, 1, false)] ++
    [(0x52, .int, 1, false), (0x54, .jmp, 1, false), (0x55, .jeq, 1, false)] ++
    [(0x56, .jne, 1, false), (0x57, .jgt, 1, false), (0x58, .jlt, 1, false)] ++
    [(0x59, .jle, 1, false), (0x5A, .jge, 1, false), (0x65, .inc, 1, true)] ++
    [(0x66, .dec, 1, true), (0x69, .not, 1, true), (0x82, .ldi, 2, false)] ++
    [(0x83, .ld, 2, false), (0x84, .st, 2, false), (0xA0, .add, 2, true)] ++
    [(0xA1, .sub, 2, true), (0xA2, .mul, 2, true), (0xA3, .div, 2, true)] ++
    [(0xA4, .mod, 2, true), (0xA7, .cmp, 2, true), (0xA8, .and, 2, true)] ++
    [(0xAA, .or, 2, true), (0xAB, .xor, 2, true), (0xAC, .shl, 2, true)] ++
    [(0xAD, .shr, 2, true)]

/-- The operand bytes in a register position (R72's `reg` columns): all of them, but for LDI's B (R75). -/
def registerOperands (i : Instr) : List Byte :=
  match i with
  | .ldi a _ => [a]
  | i => i.operands

/-- A conditional jump with opcode byte `op`: to `R[ra]` if `cond`, else past its two bytes; nothing else
changes (R189). -/
def JumpsWhen (j : Byte → Instr) (ra : Reg) (s : State) (op : Byte) (cond : Prop) : Prop :=
  encode (j ra.toByte) = [op, ra.toByte] ∧
    ∃ t, exec (j ra.toByte) s = .next t ∧
      (cond → t.pc.toNat = (s.readReg ra).toNat) ∧
      (¬cond → t.pc = BitVec.ofNat 9 (s.pc.toNat + 2)) ∧ Frame [] [] s t

end Sys2Proof.Machine

open Sys2Proof Sys2Proof.Machine

/-- Decoding and encoding are inverse to each other on all instructions and all bytes. (R70, R72, R73,
R76, R79) -/
def Obligations.DecodeAndEncodeAreInverse : Prop :=
  (∀ (i : Instr) (rest : List Byte), decode (encode i ++ rest) = .ok (i, rest)) ∧
    ∀ (bytes rest : List Byte) (i : Instr), decode bytes = .ok (i, rest) → bytes = encode i ++ rest

/-- The decoder accepts exactly the 34 opcode bytes, with their records; any other byte raises
UnknownOpcode. (R73, R222) -/
def Obligations.DecodingAcceptsExactlyTheTable : Prop :=
  (∀ (op : Byte) (row : OpcodeRow), lookupOpcode op = some row ↔
    row.opcode = op ∧ (op, row.mnemonic, row.operandCount, row.isAlu) ∈ opcodeMap) ∧
  ∀ (s : State) (op : Byte), s.status = .running → s.fetch s.pc.toNat = some op →
    (∀ e ∈ opcodeMap, e.1 ≠ op) → FaultsWith .unknownOpcode (some op) s (step s)

/-- The fields of the opcode byte: operand count, ALU bit, pc bit. (R71) -/
def Obligations.OpcodeFieldsGiveCountAluAndPc : Prop :=
  ∀ i : Instr, i.mnemonic.opcode.toNat / 64 = i.operands.length ∧
    (i.mnemonic.opcode.getLsbD 5 = true ↔ i.mnemonic ∈ [.add, .sub, .mul, .div, .mod, .and, .or,
      .xor, .not, .shl, .shr, .inc, .dec, .cmp]) ∧
    (i.mnemonic.opcode.getLsbD 4 = true ↔ i.mnemonic ∈ [.call, .ret, .jmp, .jeq, .jne, .jgt, .jlt,
      .jle, .jge, .int, .iret])

/-- Words written out from the encoding tables decode to the instructions they stand for. (R72, R79) -/
def Obligations.WrittenOutWordsDecode : Prop :=
  decode [0b10000010, 0b00000000, 0b00001000, 0b01000111, 0b00000000, 0b00000001] =
      .ok (.ldi 0 8, [0b01000111, 0b00000000, 0b00000001]) ∧
    decode [0b01000111, 0b00000000, 0b00000001] = .ok (.prn 0, [0b00000001]) ∧
    decode [0b00000001] = .ok (.hlt, []) ∧
    decode [0b10100000, 0b00000000, 0b00000001] = .ok (.add 0 1, []) ∧
    decode [0b01101001, 0b00000011] = .ok (.not 3, []) ∧
    decode [0b01000101, 0b00000000] = .ok (.push 0, []) ∧
    decode [0b01010000, 0b00000001] = .ok (.call 1, []) ∧
    decode [0b01010101, 0b00000011] = .ok (.jeq 3, []) ∧
    decode [0b01010010, 0b00000000] = .ok (.int 0, []) ∧
    decode [0b00010011] = .ok (.iret, []) ∧
    decode [0b10000100, 0b00000000, 0b00000001] = .ok (.st 0 1, [])

/-- A step at a Running state is exec of the instruction whose bytes stand at the pc. (R9, R100, R102) -/
def Obligations.StepRunsTheDecodedInstruction : Prop :=
  ∀ (s : State) (n : Nat) (bytes : List Byte) (i : Instr), s.status = .running →
    s.fetchBytes s.pc.toNat n = some bytes → decode bytes = .ok (i, []) → step s = exec i s

/-- A Running core always has a step to a next state; a Halted core has none. (R100, R109) -/
def Obligations.StepExistsExactlyWhileRunning : Prop :=
  (∀ s : State, (∃ t, step s = .next t) ↔ s.status = .running) ∧
    ∀ (s : State) (reason : HaltReason), s.status = .halted reason → step s = .fault .coreHalted

/-- The fetch check, and ProgramCounterOutOfBounds on a failed opcode or operand fetch. The rule
follows the spec's own decisions D13, D14 (92_eei_decisions.md). (R101) -/
def Obligations.FetchIsBoundedByImageAndMemory : Prop :=
  (∀ (s : State) (addr : Nat), s.fetch addr =
    if addr ≤ 255 ∧ (s.cfg.fetchBound = .memory ∨ (s.imgStart ≤ addr ∧ addr < s.imgEnd)) then
      some (s.readMem (BitVec.ofNat 8 addr)) else none) ∧
  (∀ s : State, s.status = .running → s.fetch s.pc.toNat = none →
    FaultsWith .programCounterOutOfBounds none s (step s)) ∧
  ∀ (s : State) (op : Byte) (row : OpcodeRow) (k : Nat), s.status = .running →
    s.fetch s.pc.toNat = some op → lookupOpcode op = some row → 1 ≤ k → k ≤ row.operandCount →
    s.fetch (s.pc.toNat + k) = none →
    FaultsWith .programCounterOutOfBounds (some op) s (step s)

/-- An instruction raises InvalidRegisterIndex exactly if one of its register operand bytes is above
7. These rules follow the spec's own decisions D10, D22 (92_eei_decisions.md). (R103, R226) -/
def Obligations.RegisterOperandAboveSevenFaults : Prop :=
  (∀ (i : Instr) (s : State), (∃ b ∈ registerOperands i, 7 < b.toNat) →
    FaultsWith .invalidRegisterIndex (some i.mnemonic.opcode) s (exec i s)) ∧
  (∀ (i : Instr) (s t : State), (∀ b ∈ registerOperands i, b.toNat ≤ 7) → exec i s = .next t →
    s.status = .running → t.status ≠ .halted (.fault .invalidRegisterIndex)) ∧
  ∀ b : Byte, b.toNat ≤ 7 ↔ ∃ r : Reg, b = r.toByte

/-- ADD: R[ra] becomes R[ra] + R[rb] modulo 256. (R120) -/
def Obligations.AddWritesTheWrappedSum : Prop :=
  ∀ (ra rb : Reg) (s : State), encode (.add ra.toByte rb.toByte) = [0xA0, ra.toByte, rb.toByte] ∧
    ∃ t, exec (.add ra.toByte rb.toByte) s = .next t ∧
      (t.readReg ra).toNat = ((s.readReg ra).toNat + (s.readReg rb).toNat) % 256 ∧
      t.pc = BitVec.ofNat 9 (s.pc.toNat + 3) ∧ Frame [ra] [] s t

/-- SUB: R[ra] becomes R[ra] - R[rb] modulo 256. (R121) -/
def Obligations.SubWritesTheWrappedDifference : Prop :=
  ∀ (ra rb : Reg) (s : State), encode (.sub ra.toByte rb.toByte) = [0xA1, ra.toByte, rb.toByte] ∧
    ∃ t, exec (.sub ra.toByte rb.toByte) s = .next t ∧
      ((t.readReg ra).toNat : Int) = ((s.readReg ra).toNat - (s.readReg rb).toNat : Int) % 256 ∧
      t.pc = BitVec.ofNat 9 (s.pc.toNat + 3) ∧ Frame [ra] [] s t

/-- MUL: R[ra] becomes R[ra] * R[rb] modulo 256. (R122) -/
def Obligations.MulWritesTheLowByteOfTheProduct : Prop :=
  ∀ (ra rb : Reg) (s : State), encode (.mul ra.toByte rb.toByte) = [0xA2, ra.toByte, rb.toByte] ∧
    ∃ t, exec (.mul ra.toByte rb.toByte) s = .next t ∧
      (t.readReg ra).toNat = ((s.readReg ra).toNat * (s.readReg rb).toNat) % 256 ∧
      t.pc = BitVec.ofNat 9 (s.pc.toNat + 3) ∧ Frame [ra] [] s t

/-- DIV: R[ra] becomes the floor of the unsigned quotient; a zero divisor faults. The rule follows the
spec's own decision D30 (92_eei_decisions.md). (R123) -/
def Obligations.DivWritesTheQuotientOrFaults : Prop :=
  ∀ (ra rb : Reg) (s : State), encode (.div ra.toByte rb.toByte) = [0xA3, ra.toByte, rb.toByte] ∧
    (s.readReg rb ≠ 0 → ∃ t, exec (.div ra.toByte rb.toByte) s = .next t ∧
      (t.readReg ra).toNat = (s.readReg ra).toNat / (s.readReg rb).toNat ∧
      t.pc = BitVec.ofNat 9 (s.pc.toNat + 3) ∧ Frame [ra] [] s t) ∧
    (s.readReg rb = 0 → FaultsWith .divisionByZero (some 0xA3) s (exec (.div ra.toByte rb.toByte) s))

/-- MOD: R[ra] becomes the unsigned remainder; a zero divisor faults. The rule follows the spec's own
decision D30 (92_eei_decisions.md). (R124) -/
def Obligations.ModWritesTheRemainderOrFaults : Prop :=
  ∀ (ra rb : Reg) (s : State), encode (.mod ra.toByte rb.toByte) = [0xA4, ra.toByte, rb.toByte] ∧
    (s.readReg rb ≠ 0 → ∃ t, exec (.mod ra.toByte rb.toByte) s = .next t ∧
      ((t.readReg ra).toNat : Int) = (s.readReg ra).toNat -
        (s.readReg rb).toNat * ((s.readReg ra).toNat / (s.readReg rb).toNat) ∧
      t.pc = BitVec.ofNat 9 (s.pc.toNat + 3) ∧ Frame [ra] [] s t) ∧
    (s.readReg rb = 0 → FaultsWith .divisionByZero (some 0xA4) s (exec (.mod ra.toByte rb.toByte) s))

/-- AND, OR, XOR: bitwise, into the first register. (R125, R126, R127) -/
def Obligations.AndOrXorWorkBitByBit : Prop :=
  ∀ (ra rb : Reg) (s : State),
    encode (.and ra.toByte rb.toByte) = [0xA8, ra.toByte, rb.toByte] ∧
    (∃ t, exec (.and ra.toByte rb.toByte) s = .next t ∧
      (∀ k < 8, (t.readReg ra).getLsbD k = ((s.readReg ra).getLsbD k && (s.readReg rb).getLsbD k)) ∧
      t.pc = BitVec.ofNat 9 (s.pc.toNat + 3) ∧ Frame [ra] [] s t) ∧
    encode (.or ra.toByte rb.toByte) = [0xAA, ra.toByte, rb.toByte] ∧
    (∃ t, exec (.or ra.toByte rb.toByte) s = .next t ∧
      (∀ k < 8, (t.readReg ra).getLsbD k = ((s.readReg ra).getLsbD k || (s.readReg rb).getLsbD k)) ∧
      t.pc = BitVec.ofNat 9 (s.pc.toNat + 3) ∧ Frame [ra] [] s t) ∧
    encode (.xor ra.toByte rb.toByte) = [0xAB, ra.toByte, rb.toByte] ∧
    (∃ t, exec (.xor ra.toByte rb.toByte) s = .next t ∧
      (∀ k < 8, (t.readReg ra).getLsbD k = xor ((s.readReg ra).getLsbD k) ((s.readReg rb).getLsbD k)) ∧
      t.pc = BitVec.ofNat 9 (s.pc.toNat + 3) ∧ Frame [ra] [] s t)

/-- SHL, SHR: shift by the whole count byte; 8 or more gives 0. These rules follow the spec's own
decision D19 (92_eei_decisions.md). (R128, R129) -/
def Obligations.ShiftsUseTheWholeCount : Prop :=
  ∀ (ra rb : Reg) (s : State),
    encode (.shl ra.toByte rb.toByte) = [0xAC, ra.toByte, rb.toByte] ∧
    (∃ t, exec (.shl ra.toByte rb.toByte) s = .next t ∧
      (t.readReg ra).toNat = ((s.readReg ra).toNat * 2 ^ (s.readReg rb).toNat) % 256 ∧
      (8 ≤ (s.readReg rb).toNat → t.readReg ra = 0) ∧
      t.pc = BitVec.ofNat 9 (s.pc.toNat + 3) ∧ Frame [ra] [] s t) ∧
    encode (.shr ra.toByte rb.toByte) = [0xAD, ra.toByte, rb.toByte] ∧
    (∃ t, exec (.shr ra.toByte rb.toByte) s = .next t ∧
      (t.readReg ra).toNat = (s.readReg ra).toNat / 2 ^ (s.readReg rb).toNat ∧
      (8 ≤ (s.readReg rb).toNat → t.readReg ra = 0) ∧
      t.pc = BitVec.ofNat 9 (s.pc.toNat + 3) ∧ Frame [ra] [] s t)

/-- NOT, INC, DEC: complement, plus one, minus one, modulo 256. (R130, R131, R132) -/
def Obligations.NotIncDecChangeOneRegister : Prop :=
  ∀ (ra : Reg) (s : State),
    encode (.not ra.toByte) = [0x69, ra.toByte] ∧
    (∃ t, exec (.not ra.toByte) s = .next t ∧
      (t.readReg ra).toNat = 255 - (s.readReg ra).toNat ∧
      t.pc = BitVec.ofNat 9 (s.pc.toNat + 2) ∧ Frame [ra] [] s t) ∧
    encode (.inc ra.toByte) = [0x65, ra.toByte] ∧
    (∃ t, exec (.inc ra.toByte) s = .next t ∧
      (t.readReg ra).toNat = ((s.readReg ra).toNat + 1) % 256 ∧
      t.pc = BitVec.ofNat 9 (s.pc.toNat + 2) ∧ Frame [ra] [] s t) ∧
    encode (.dec ra.toByte) = [0x66, ra.toByte] ∧
    (∃ t, exec (.dec ra.toByte) s = .next t ∧
      ((t.readReg ra).toNat : Int) = ((s.readReg ra).toNat - 1 : Int) % 256 ∧
      t.pc = BitVec.ofNat 9 (s.pc.toNat + 2) ∧ Frame [ra] [] s t)

/-- CMP: E iff equal, G iff greater, L iff less, unsigned; exactly one is set. (R133) -/
def Obligations.CmpSetsExactlyOneFlag : Prop :=
  ∀ (ra rb : Reg) (s : State), encode (.cmp ra.toByte rb.toByte) = [0xA7, ra.toByte, rb.toByte] ∧
    ∃ t, exec (.cmp ra.toByte rb.toByte) s = .next t ∧
      (t.flags.e = true ↔ (s.readReg ra).toNat = (s.readReg rb).toNat) ∧
      (t.flags.g = true ↔ (s.readReg ra).toNat > (s.readReg rb).toNat) ∧
      (t.flags.l = true ↔ (s.readReg ra).toNat < (s.readReg rb).toNat) ∧
      t.flags.e.toNat + t.flags.g.toNat + t.flags.l.toNat = 1 ∧
      t.pc = BitVec.ofNat 9 (s.pc.toNat + 3) ∧
      KeepsRegsBut [] s t ∧ KeepsMemBut [] s t ∧ t.out = s.out ∧ KeepsRun s t

/-- LDI: R[ra] becomes the immediate byte. (R150) -/
def Obligations.LdiWritesTheImmediate : Prop :=
  (∀ (ra : Reg) (imm : Byte) (s : State), encode (.ldi ra.toByte imm) = [0x82, ra.toByte, imm] ∧
    ∃ t, exec (.ldi ra.toByte imm) s = .next t ∧ t.readReg ra = imm ∧
      t.pc = BitVec.ofNat 9 (s.pc.toNat + 3) ∧ Frame [ra] [] s t) ∧
  ∀ (a imm : Byte) (s : State), 7 < a.toNat →
    FaultsWith .invalidRegisterIndex (some 0x82) s (exec (.ldi a imm) s)

/-- LD: R[ra] becomes the byte of memory at address R[rb]. (R151) -/
def Obligations.LdReadsTheAddressedByte : Prop :=
  (∀ (ra rb : Reg) (s : State), encode (.ld ra.toByte rb.toByte) = [0x83, ra.toByte, rb.toByte] ∧
    ∃ t, exec (.ld ra.toByte rb.toByte) s = .next t ∧ t.readReg ra = s.readMem (s.readReg rb) ∧
      t.pc = BitVec.ofNat 9 (s.pc.toNat + 3) ∧ Frame [ra] [] s t) ∧
  ∀ (a b : Byte) (s : State), (7 < a.toNat ∨ 7 < b.toNat) →
    FaultsWith .invalidRegisterIndex (some 0x83) s (exec (.ld a b) s)

/-- ST: the byte at address R[ra] becomes R[rb]; nothing else changes. (R152) -/
def Obligations.StWritesOnlyTheAddressedByte : Prop :=
  (∀ (ra rb : Reg) (s : State), encode (.st ra.toByte rb.toByte) = [0x84, ra.toByte, rb.toByte] ∧
    ∃ t, exec (.st ra.toByte rb.toByte) s = .next t ∧ t.readMem (s.readReg ra) = s.readReg rb ∧
      (∀ v, t.fetch (s.readReg ra).toNat = some v → v = s.readReg rb) ∧
      t.pc = BitVec.ofNat 9 (s.pc.toNat + 3) ∧ Frame [] [s.readReg ra] s t) ∧
  ∀ (a b : Byte) (s : State), (7 < a.toNat ∨ 7 < b.toNat) →
    FaultsWith .invalidRegisterIndex (some 0x84) s (exec (.st a b) s)

/-- PRN: appends Dec(R[ra]) to the output. (R161) -/
def Obligations.PrnEmitsTheNumber : Prop :=
  (∀ (ra : Reg) (s : State), encode (.prn ra.toByte) = [0x47, ra.toByte] ∧
    ∃ t, exec (.prn ra.toByte) s = .next t ∧ t.out = s.out ++ [.dec (s.readReg ra)] ∧
      t.pc = BitVec.ofNat 9 (s.pc.toNat + 2) ∧
      KeepsRegsBut [] s t ∧ KeepsMemBut [] s t ∧ t.flags = s.flags ∧ KeepsRun s t) ∧
  (∀ (a : Byte) (s : State), 7 < a.toNat →
    FaultsWith .invalidRegisterIndex (some 0x47) s (exec (.prn a) s)) ∧
  (OutputEvent.dec 0).render = ['0', '\n'] ∧ (OutputEvent.dec 8).render = ['8', '\n'] ∧
  (OutputEvent.dec 255).render = ['2', '5', '5', '\n']

/-- PRA: appends Chr(R[ra]) to the output. (R162) -/
def Obligations.PraEmitsTheCharacter : Prop :=
  (∀ (ra : Reg) (s : State), encode (.pra ra.toByte) = [0x48, ra.toByte] ∧
    ∃ t, exec (.pra ra.toByte) s = .next t ∧ t.out = s.out ++ [.chr (s.readReg ra)] ∧
      t.pc = BitVec.ofNat 9 (s.pc.toNat + 2) ∧
      KeepsRegsBut [] s t ∧ KeepsMemBut [] s t ∧ t.flags = s.flags ∧ KeepsRun s t) ∧
  (∀ (a : Byte) (s : State), 7 < a.toNat →
    FaultsWith .invalidRegisterIndex (some 0x48) s (exec (.pra a) s)) ∧
  ∀ v : Byte, (OutputEvent.chr v).render = [Char.ofNat v.toNat]

/-- Rendering of output events: unsigned decimal and a line feed, or one character. (R160, R161, R162) -/
def Obligations.EventsRenderAsDecimalOrCharacter : Prop :=
  (∀ v : Byte, ∃ ds : List Nat, (OutputEvent.dec v).render = ds.map (fun d => Char.ofNat (48 + d)) ++ ['\n'] ∧
    (∀ d ∈ ds, d ≤ 9) ∧ ds.foldl (fun n d => 10 * n + d) 0 = v.toNat ∧
    (ds.head? = some 0 → v = 0 ∧ ds = [0]) ∧ ds ≠ []) ∧
  ∀ v : Byte, (OutputEvent.chr v).render = [Char.ofNat v.toNat]

/-- PUSH: R7 down by one, the register stored there; StackOverflow outside the stack region. The rule
follows the spec's own decision D9 (92_eei_decisions.md). (R174) -/
def Obligations.PushStoresBelowTheStackPointer : Prop :=
  (∀ (ra : Reg) (s : State), encode (.push ra.toByte) = [0x45, ra.toByte] ∧
    ((s.cfg.stackCheck = false ∨
      (s.stackLimit + 1 ≤ (s.readReg .r7).toNat ∧ (s.readReg .r7).toNat ≤ s.cfg.spInit.toNat)) →
      ∃ t, exec (.push ra.toByte) s = .next t ∧ t.readReg .r7 = s.readReg .r7 - 1 ∧
        t.readMem (s.readReg .r7 - 1) = (if ra = .r7 then s.readReg .r7 - 1 else s.readReg ra) ∧
        t.pc = BitVec.ofNat 9 (s.pc.toNat + 2) ∧ Frame [.r7] [s.readReg .r7 - 1] s t) ∧
    (s.cfg.stackCheck = true →
      ¬(s.stackLimit + 1 ≤ (s.readReg .r7).toNat ∧ (s.readReg .r7).toNat ≤ s.cfg.spInit.toNat) →
      FaultsWith .stackOverflow (some 0x45) s (exec (.push ra.toByte) s) ∧
      (s.pc.toNat + 2 ≤ 255 → FaultsWith .stackOverflow (some 0x50) s (exec (.call ra.toByte) s)) ∧
      (s.pc.toNat + 2 ≤ 255 → (s.readReg ra).toNat < s.cfg.intVectorCount →
        FaultsWith .stackOverflow (some 0x52) s (exec (.int ra.toByte) s)))) ∧
  ∀ (a : Byte) (s : State), 7 < a.toNat →
    FaultsWith .invalidRegisterIndex (some 0x45) s (exec (.push a) s)

/-- POP: the register gets the byte at R7, then R7 goes up by one; StackUnderflow outside the stack
region. The rule follows the spec's own decision D9 (92_eei_decisions.md). (R175) -/
def Obligations.PopReadsTheTopOfTheStack : Prop :=
  (∀ (ra : Reg) (s : State), encode (.pop ra.toByte) = [0x46, ra.toByte] ∧
    ((s.cfg.stackCheck = false ∨
      (s.stackLimit ≤ (s.readReg .r7).toNat ∧ (s.readReg .r7).toNat + 1 ≤ s.cfg.spInit.toNat)) →
      ∃ t, exec (.pop ra.toByte) s = .next t ∧
        (ra ≠ .r7 → t.readReg ra = s.readMem (s.readReg .r7) ∧ t.readReg .r7 = s.readReg .r7 + 1) ∧
        (ra = .r7 → t.readReg .r7 = s.readMem (s.readReg .r7) + 1) ∧
        t.pc = BitVec.ofNat 9 (s.pc.toNat + 2) ∧ Frame [ra, .r7] [] s t) ∧
    (s.cfg.stackCheck = true →
      ¬(s.stackLimit ≤ (s.readReg .r7).toNat ∧ (s.readReg .r7).toNat + 1 ≤ s.cfg.spInit.toNat) →
      FaultsWith .stackUnderflow (some 0x46) s (exec (.pop ra.toByte) s) ∧
      FaultsWith .stackUnderflow (some 0x11) s (exec .ret s) ∧
      FaultsWith .stackUnderflow (some 0x13) s (exec .iret s))) ∧
  ∀ (a : Byte) (s : State), 7 < a.toNat →
    FaultsWith .invalidRegisterIndex (some 0x46) s (exec (.pop a) s)

/-- With the stack check off no stack fault is raised and R7 wraps; with it on the check faults first.
The rule follows the spec's own decisions D11, D12 (92_eei_decisions.md). (R173) -/
def Obligations.StackPointerWrapsOnlyUnchecked : Prop :=
  (∀ (i : Instr) (s t : State), s.cfg.stackCheck = false → s.status = .running → exec i s = .next t →
    t.status ≠ .halted (.fault .stackOverflow) ∧ t.status ≠ .halted (.fault .stackUnderflow)) ∧
  (∀ (ra : Reg) (s : State), s.cfg.stackCheck = false → ra ≠ .r7 →
    (s.readReg .r7 = 0 → ∃ t, exec (.push ra.toByte) s = .next t ∧ t.readReg .r7 = 255 ∧
      t.readMem 255 = s.readReg ra) ∧
    (s.readReg .r7 = 255 → ∃ t, exec (.pop ra.toByte) s = .next t ∧ t.readReg .r7 = 0)) ∧
  ∀ (ra : Reg) (s : State), s.cfg.stackCheck = true →
    (s.readReg .r7 = 0 → FaultsWith .stackOverflow (some 0x45) s (exec (.push ra.toByte) s)) ∧
    (s.readReg .r7 = 255 → FaultsWith .stackUnderflow (some 0x46) s (exec (.pop ra.toByte) s))

/-- PUSH then POP of the same register restores the register and R7. (R176) -/
def Obligations.PushThenPopIsIdentity : Prop :=
  ∀ (ra : Reg) (s t u : State), s.status = .running → exec (.push ra.toByte) s = .next t →
    t.status = .running → exec (.pop ra.toByte) t = .next u → u.status = .running → u.regs = s.regs

/-- CALL: pushes pc + 2, jumps to R[ra] read after the push. The rule follows the spec's own decisions
D9, D27 (92_eei_decisions.md). (R180) -/
def Obligations.CallPushesTheReturnAddress : Prop :=
  (∀ (ra : Reg) (s : State), encode (.call ra.toByte) = [0x50, ra.toByte] ∧
    (s.pc.toNat + 2 ≤ 255 → (s.cfg.stackCheck = false ∨
      (s.stackLimit + 1 ≤ (s.readReg .r7).toNat ∧ (s.readReg .r7).toNat ≤ s.cfg.spInit.toNat)) →
      ∃ t, exec (.call ra.toByte) s = .next t ∧ t.readReg .r7 = s.readReg .r7 - 1 ∧
        (t.readMem (s.readReg .r7 - 1)).toNat = s.pc.toNat + 2 ∧
        t.pc.toNat = (if ra = .r7 then s.readReg .r7 - 1 else s.readReg ra).toNat ∧
        Frame [.r7] [s.readReg .r7 - 1] s t) ∧
    (255 < s.pc.toNat + 2 →
      FaultsWith .programCounterOutOfBounds (some 0x50) s (exec (.call ra.toByte) s)) ∧
    (s.pc.toNat + 2 ≤ 255 → s.cfg.stackCheck = true →
      ¬(s.stackLimit + 1 ≤ (s.readReg .r7).toNat ∧ (s.readReg .r7).toNat ≤ s.cfg.spInit.toNat) →
      FaultsWith .stackOverflow (some 0x50) s (exec (.call ra.toByte) s))) ∧
  ∀ (a : Byte) (s : State), 7 < a.toNat →
    FaultsWith .invalidRegisterIndex (some 0x50) s (exec (.call a) s)

/-- RET: the pc becomes the byte at R7, R7 goes up by one. (R181) -/
def Obligations.RetJumpsToThePoppedByte : Prop :=
  encode .ret = [0x11] ∧ ∀ s : State,
    ((s.cfg.stackCheck = false ∨
      (s.stackLimit ≤ (s.readReg .r7).toNat ∧ (s.readReg .r7).toNat + 1 ≤ s.cfg.spInit.toNat)) →
      ∃ t, exec .ret s = .next t ∧ t.pc.toNat = (s.readMem (s.readReg .r7)).toNat ∧
        t.readReg .r7 = s.readReg .r7 + 1 ∧ Frame [.r7] [] s t) ∧
    (s.cfg.stackCheck = true →
      ¬(s.stackLimit ≤ (s.readReg .r7).toNat ∧ (s.readReg .r7).toNat + 1 ≤ s.cfg.spInit.toNat) → FaultsWith .stackUnderflow (some 0x11) s (exec .ret s))

/-- CALL then RET with R7 and the stacked byte as CALL left them resumes at pc + 2 with all registers
as before. (R191) -/
def Obligations.CallThenRetResumesAfterTheCall : Prop :=
  ∀ (ra : Reg) (s t u v : State), s.status = .running → exec (.call ra.toByte) s = .next t →
    t.status = .running → u.status = .running → u.cfg = t.cfg → u.imgEnd = t.imgEnd →
    u.readReg .r7 = t.readReg .r7 → u.readMem (t.readReg .r7) = t.readMem (t.readReg .r7) →
    exec .ret u = .next v →
    v.status = .running ∧ v.pc.toNat = s.pc.toNat + 2 ∧ v.readReg .r7 = s.readReg .r7 ∧
      KeepsRegsBut [.r7] u v ∧ v.flags = u.flags ∧ KeepsRegsBut [.r7] s t ∧ t.flags = s.flags

/-- JMP: the pc becomes R[ra]. (R182) -/
def Obligations.JmpGoesToTheRegister : Prop :=
  (∀ (ra : Reg) (s : State), encode (.jmp ra.toByte) = [0x54, ra.toByte] ∧
    ∃ t, exec (.jmp ra.toByte) s = .next t ∧ t.pc.toNat = (s.readReg ra).toNat ∧ Frame [] [] s t) ∧
  ∀ (a : Byte) (s : State), 7 < a.toNat →
    FaultsWith .invalidRegisterIndex (some 0x54) s (exec (.jmp a) s)

/-- JEQ JNE JGT JLT JGE JLE: to R[ra] if the flags condition holds, else fall through. These rules
follow the spec's own decisions D4, D24 (92_eei_decisions.md). (R183, R184, R185, R186, R187,
R188, R189) -/
def Obligations.ConditionalJumpsTestTheFlags : Prop :=
  (∀ (ra : Reg) (s : State),
    JumpsWhen .jeq ra s 0x55 (s.flags.e = true) ∧
    JumpsWhen .jne ra s 0x56 (s.flags.e = false) ∧
    JumpsWhen .jgt ra s 0x57 (s.flags.g = true) ∧
    JumpsWhen .jlt ra s 0x58 (s.flags.l = true) ∧
    JumpsWhen .jge ra s 0x5A ((s.flags.g = true ∨ s.flags.e = true)) ∧
    JumpsWhen .jle ra s 0x59 ((s.flags.l = true ∨ s.flags.e = true))) ∧
  ∀ (a : Byte) (s : State), 7 < a.toNat → ∀ j ∈ [Instr.jeq, .jne, .jgt, .jlt, .jge, .jle],
    FaultsWith .invalidRegisterIndex (some (j a).mnemonic.opcode) s (exec (j a) s)

/-- HLT: Halted(Ok), the pc stays at the HLT, and there is no further step. (R190) -/
def Obligations.HltHaltsWithOk : Prop :=
  (encode .hlt = [0x01] ∧ ∀ s : State, ∃ t, exec .hlt s = .next t ∧ t.status = .halted .ok ∧ t.pc = s.pc ∧
    step t = .fault .coreHalted ∧ KeepsRegsBut [] s t ∧ KeepsMemBut [] s t ∧ t.flags = s.flags ∧
    t.out = s.out ∧ t.err = s.err ∧ t.imgStart = s.imgStart ∧ t.imgEnd = s.imgEnd ∧ t.cfg = s.cfg ∧
    t.loaded = s.loaded) ∧
  ∀ s t : State, step s = .next t → t.status = .halted .ok → s.fetch s.pc.toNat = some 0x01

/-- NOP: the pc advances by 1 and nothing else changes. (R106) -/
def Obligations.NopOnlyAdvancesThePc : Prop :=
  (encode .nop = [0x00] ∧ ∀ s : State, ∃ t, exec .nop s = .next t ∧
    t.pc = BitVec.ofNat 9 (s.pc.toNat + 1) ∧ Frame [] [] s t) ∧
  ∀ s : State, s.status = .running → s.pc.toNat = 255 → ∃ t, exec .nop s = .next t ∧ t.pc.toNat = 256 ∧
    FaultsWith .programCounterOutOfBounds none t (step t)

/-- INT: pushes flags, return address and R0..R7, and goes to the handler address of its slot. The
rule follows the spec's own decisions D5, D6, D7, D9, D27 (92_eei_decisions.md). (R200) -/
def Obligations.IntPushesTheFrameAndJumps : Prop :=
  (∀ (ra : Reg) (s : State), encode (.int ra.toByte) = [0x52, ra.toByte] ∧
    ((s.readReg ra).toNat < s.cfg.intVectorCount →
      s.cfg.intVectorBase.toNat + (s.readReg ra).toNat ≤ 255 → s.pc.toNat + 2 ≤ 255 →
      (s.cfg.stackCheck = false ∨
        (s.stackLimit + 10 ≤ (s.readReg .r7).toNat ∧ (s.readReg .r7).toNat ≤ s.cfg.spInit.toNat)) →
      ∃ t, exec (.int ra.toByte) s = .next t ∧
        (t.readMem (s.readReg .r7 - 1)).toNat =
          4 * s.flags.l.toNat + 2 * s.flags.g.toNat + s.flags.e.toNat ∧
        (t.readMem (s.readReg .r7 - 2)).toNat = s.pc.toNat + 2 ∧
        t.readMem (s.readReg .r7 - 3) = s.readReg .r0 ∧ t.readMem (s.readReg .r7 - 4) = s.readReg .r1 ∧
        t.readMem (s.readReg .r7 - 5) = s.readReg .r2 ∧ t.readMem (s.readReg .r7 - 6) = s.readReg .r3 ∧
        t.readMem (s.readReg .r7 - 7) = s.readReg .r4 ∧ t.readMem (s.readReg .r7 - 8) = s.readReg .r5 ∧
        t.readMem (s.readReg .r7 - 9) = s.readReg .r6 ∧
        t.readMem (s.readReg .r7 - 10) = s.readReg .r7 - 10 ∧ t.readReg .r7 = s.readReg .r7 - 10 ∧
        t.pc.toNat = (t.readMem (s.cfg.intVectorBase + s.readReg ra)).toNat ∧
        Frame [.r7] [s.readReg .r7 - 1, s.readReg .r7 - 2, s.readReg .r7 - 3, s.readReg .r7 - 4,
          s.readReg .r7 - 5, s.readReg .r7 - 6, s.readReg .r7 - 7, s.readReg .r7 - 8,
          s.readReg .r7 - 9, s.readReg .r7 - 10] s t) ∧
    (s.cfg.intVectorCount ≤ (s.readReg ra).toNat →
      FaultsWith .invalidInterruptNumber (some 0x52) s (exec (.int ra.toByte) s)) ∧
    ((s.readReg ra).toNat < s.cfg.intVectorCount → 255 < s.pc.toNat + 2 →
      FaultsWith .programCounterOutOfBounds (some 0x52) s (exec (.int ra.toByte) s)) ∧
    ((s.readReg ra).toNat < s.cfg.intVectorCount → s.pc.toNat + 2 ≤ 255 → s.cfg.stackCheck = true →
      ¬(s.stackLimit + 10 ≤ (s.readReg .r7).toNat ∧ (s.readReg .r7).toNat ≤ s.cfg.spInit.toNat) →
      FaultsWith .stackOverflow (some 0x52) s (exec (.int ra.toByte) s))) ∧
  ∀ (a : Byte) (s : State), 7 < a.toNat →
    FaultsWith .invalidRegisterIndex (some 0x52) s (exec (.int a) s)

/-- IRET: pops R7 (plus 1), R6..R0, the pc and the flags. The rule follows the spec's own decisions
D5, D8, D9 (92_eei_decisions.md). (R201) -/
def Obligations.IretPopsTheFrame : Prop :=
  encode .iret = [0x13] ∧ ∀ (s : State) (q : Byte), q = s.readMem (s.readReg .r7) + 1 →
    ((s.cfg.stackCheck = false ∨ (s.stackLimit ≤ (s.readReg .r7).toNat ∧
        (s.readReg .r7).toNat + 1 ≤ s.cfg.spInit.toNat ∧
        s.stackLimit ≤ q.toNat ∧ q.toNat + 9 ≤ s.cfg.spInit.toNat)) →
      ∃ t, exec .iret s = .next t ∧
        t.readReg .r6 = s.readMem q ∧ t.readReg .r5 = s.readMem (q + 1) ∧
        t.readReg .r4 = s.readMem (q + 2) ∧ t.readReg .r3 = s.readMem (q + 3) ∧
        t.readReg .r2 = s.readMem (q + 4) ∧ t.readReg .r1 = s.readMem (q + 5) ∧
        t.readReg .r0 = s.readMem (q + 6) ∧ t.pc.toNat = (s.readMem (q + 7)).toNat ∧
        t.flags.e = (s.readMem (q + 8)).getLsbD 0 ∧ t.flags.g = (s.readMem (q + 8)).getLsbD 1 ∧
        t.flags.l = (s.readMem (q + 8)).getLsbD 2 ∧ t.readReg .r7 = q + 9 ∧
        KeepsMemBut [] s t ∧ t.out = s.out ∧ KeepsRun s t) ∧
    (s.cfg.stackCheck = true → ¬(s.stackLimit ≤ (s.readReg .r7).toNat ∧
        (s.readReg .r7).toNat + 1 ≤ s.cfg.spInit.toNat ∧
        s.stackLimit ≤ q.toNat ∧ q.toNat + 9 ≤ s.cfg.spInit.toNat) →
      FaultsWith .stackUnderflow (some 0x13) s (exec .iret s))

/-- IRET with R7 and the frame as INT left them restores all registers and flags and resumes at pc +
2. (R200, R201, R203) -/
def Obligations.IntThenIretResumesTheProgram : Prop :=
  ∀ (ra : Reg) (s t u : State), s.status = .running → exec (.int ra.toByte) s = .next t →
    t.status = .running → u.status = .running → u.cfg = t.cfg → u.imgEnd = t.imgEnd →
    u.readReg .r7 = t.readReg .r7 →
    (∀ k : Nat, k < 10 → u.readMem (t.readReg .r7 + BitVec.ofNat 8 k) =
      t.readMem (t.readReg .r7 + BitVec.ofNat 8 k)) →
    ∃ v, exec .iret u = .next v ∧ v.status = .running ∧ v.regs = s.regs ∧ v.flags = s.flags ∧
      v.pc.toNat = s.pc.toNat + 2 ∧ v.mem = u.mem ∧ v.out = u.out

/-- INT with a vector slot past address 255 faults (the model's choice, log 5). DESIGN CHOICE, log 5:
the spec has no such parameters (R52 "always in 0..255"). (R52, R200) -/
def Obligations.VectorSlotPastMemoryFaults : Prop :=
  ∀ (ra : Reg) (s : State), (s.readReg ra).toNat < s.cfg.intVectorCount → s.pc.toNat + 2 ≤ 255 →
    (s.cfg.stackCheck = false ∨
      (s.stackLimit + 10 ≤ (s.readReg .r7).toNat ∧ (s.readReg .r7).toNat ≤ s.cfg.spInit.toNat)) →
    255 < s.cfg.intVectorBase.toNat + (s.readReg ra).toNat →
    FaultsWith .programCounterOutOfBounds (some 0x52) s (exec (.int ra.toByte) s)

/-- No instruction but CMP and IRET changes a flag. (R135) -/
def Obligations.OnlyCmpAndIretWriteFlags : Prop :=
  ∀ (i : Instr) (s t : State), exec i s = .next t → ¬t.Failed → i.mnemonic ∉ [.cmp, .iret] →
    t.flags = s.flags

/-- No instruction but ST, PUSH, CALL and INT changes a byte of memory. (R50, R107, R152, R161, R170) -/
def Obligations.OnlyStPushCallIntWriteMemory : Prop :=
  ∀ (i : Instr) (s t : State) (x : Byte), exec i s = .next t → ¬t.Failed →
    i.mnemonic ∉ [.st, .push, .call, .int] → t.readMem x = s.readMem x

/-- Which registers each kind of instruction can change. (R20, R21, R107) -/
def Obligations.RegistersChangeOnlyAsListed : Prop :=
  ∀ (i : Instr) (s t : State) (r : Reg), exec i s = .next t → ¬t.Failed →
    (i.mnemonic ∈ [.nop, .hlt, .jmp, .jeq, .jne, .jgt, .jlt, .jle, .jge, .prn, .pra, .st, .cmp] →
      t.readReg r = s.readReg r) ∧
    (i.mnemonic ∈ [.push, .call, .ret, .int] → r ≠ .r7 → t.readReg r = s.readReg r) ∧
    (i.mnemonic ∈ [.ldi, .ld, .add, .sub, .mul, .div, .mod, .and, .or, .xor, .shl, .shr, .not, .inc,
      .dec] → i.operands.head? ≠ some r.toByte → t.readReg r = s.readReg r) ∧
    (i.mnemonic = .pop → i.operands.head? ≠ some r.toByte → r ≠ .r7 → t.readReg r = s.readReg r)

/-- A step only appends to the output stream, at most one event; the stream is empty at reset. The
rule follows the spec's own decision D17 (92_eei_decisions.md). (R29) -/
def Obligations.OutputOnlyGrows : Prop :=
  (∀ s t : State, step s = .next t → t.out = s.out ∨
    ∃ ev, t.out = s.out ++ [ev] ∧ (s.fetch s.pc.toNat = some 0x47 ∨ s.fetch s.pc.toNat = some 0x48)) ∧
  ∀ cfg : Config, (State.resetWith cfg).out = []

/-- No step changes the image extent, the parameters or the load mark. The parameters and the load
mark are the model's own fields of State (log 1, log 8). (R5, R27) -/
def Obligations.StepsKeepImageExtentAndParameters : Prop :=
  ∀ s t : State, step s = .next t → t.imgStart = s.imgStart ∧ t.imgEnd = s.imgEnd ∧
    t.cfg = s.cfg ∧ t.loaded = s.loaded

/-- No step raises UnsupportedAluOperation. The rule follows the spec's own decision D28
(92_eei_decisions.md). (R225) -/
def Obligations.UnsupportedAluOperationIsUnreachable : Prop :=
  ∀ s t : State, step s = .next t → t.status ≠ .halted (.fault .unsupportedAluOperation) ∧
    (t.err = s.err ∨ ∀ r, t.err = some r → r.reason ≠ .unsupportedAluOperation)

/-- After a fault err holds the reason, the pc of the faulting instruction and its opcode byte;
otherwise err stays none. The rule follows the spec's own decision D16 (92_eei_decisions.md).
(R28) -/
def Obligations.FaultRecordNamesReasonAddressAndByte : Prop :=
  ∀ s t : State, s.err = none → step s = .next t →
    ((t.status = .running ∨ t.status = .halted .ok) → t.err = none) ∧
    ∀ f, t.status = .halted (.fault f) →
      t.err = some { reason := f, addr := s.pc, byte := s.fetch s.pc.toNat }

/-- A faulting step changes nothing but the run state and the error record (the spec's own choice D15,
log 6). Rests on the spec's own choice D15 (log 6): "the spec's commit-nothing rule is its own
choice" (R221). (R221, R102) -/
def Obligations.FaultingStepCommitsNothing : Prop :=
  ∀ (s t : State) (f : FaultName), step s = .next t → t.status = .halted (.fault f) →
    t = { s with status := t.status, err := t.err }

/-- pc = 256 arises only from the sequential advance of an instruction whose last byte is at 255.
(R23, R105) -/
def Obligations.PcReaches256OnlySequentially : Prop :=
  ∀ s t : State, s.pc.toNat ≤ 255 → step s = .next t → t.pc.toNat ≤ 256 ∧ (t.pc.toNat = 256 →
    (∃ i, s.fetchInstr = .ok i ∧ s.pc.toNat + i.operands.length = 255 ∧
      i.mnemonic ∉ [.hlt, .call, .ret, .jmp, .int, .iret]) ∧
    t.status = .running ∧ FaultsWith .programCounterOutOfBounds none t (step t))

/-- Every step keeps the machine invariant. (R23, R26, R27, R28, R50) -/
def Obligations.StepKeepsTheInvariant : Prop :=
  ∀ s t : State, Inv s → step s = .next t → Inv t

/-- The reset state meets the machine invariant, for all parameters. The run state and image extent
before a load are the model's reading (log 2). (R32) -/
def Obligations.ResetMeetsTheInvariant : Prop :=
  (∀ cfg : Config, Inv (State.resetWith cfg)) ∧ State.reset = State.resetWith Config.default

/-- Every state of every run meets the machine invariant, and its image extent and parameters are
those of its load. That the parameters are a field of State is the model's choice (log 1). (R23,
R27, R28, R250) -/
def Obligations.EveryRunMeetsTheInvariant : Prop :=
  ∀ (cfg : Config) (image : List Byte) (s t : State), (State.resetWith cfg).load image = .ok s →
    Reaches s t → Inv t ∧ t.imgStart = cfg.loadStart.toNat ∧
      t.imgEnd = cfg.loadStart.toNat + image.length ∧ t.cfg = cfg

/-- Memories in canonical form that read equally everywhere are equal data. (R50) -/
def Obligations.CanonicalMemoriesAreEqual : Prop :=
  ∀ m m' : Memory, m.wf → m'.wf → (∀ x : Byte, m.read x = m'.read x) → m = m'

/-- The load from reset: image bytes in memory, zero elsewhere, extent, pc, registers, flags; an image
that does not fit is rejected. These rules follow the spec's own decisions D3, D4, D18
(92_eei_decisions.md). (R32, R56) -/
def Obligations.LoadPlacesTheImage : Prop :=
  (∀ (cfg : Config) (image : List Byte), 256 < cfg.loadStart.toNat + image.length →
    (State.resetWith cfg).load image = .error .loadOverflow) ∧
  (∀ (cfg : Config) (image : List Byte), cfg.loadStart.toNat + image.length ≤ 256 →
    ∃ s, (State.resetWith cfg).load image = .ok s ∧
      (∀ k (h : k < image.length), s.readMem (BitVec.ofNat 8 (cfg.loadStart.toNat + k)) = image[k]) ∧
      (∀ x : Byte, ¬(cfg.loadStart.toNat ≤ x.toNat ∧ x.toNat < cfg.loadStart.toNat + image.length) →
        s.readMem x = 0) ∧
      s.imgStart = cfg.loadStart.toNat ∧ s.imgEnd = cfg.loadStart.toNat + image.length ∧
      s.pc.toNat = cfg.loadStart.toNat ∧ s.status = .running ∧
      (∀ r, s.readReg r = if r = .r7 then cfg.spInit else 0) ∧
      s.flags = { e := false, g := false, l := false } ∧ s.err = none ∧ s.out = [] ∧ s.cfg = cfg) ∧
  Config.default.spInit = 0xF4 ∧ Config.default.loadStart = 0

/-- The load is rejected in any state but the reset state (the model's reading, log 8). That the whole
state is compared is the model's reading (log 8). (R56, R250) -/
def Obligations.LoadNeedsTheResetState : Prop :=
  ∀ (s : State) (image : List Byte), s ≠ State.resetWith s.cfg → s.load image = .error .notReset

/-- The codes of the halt reasons. (R220) -/
def Obligations.HaltReasonsHaveDistinctCodes : Prop :=
  [HaltReason.ok, .fault .unknownOpcode, .fault .programCounterOutOfBounds, .fault .divisionByZero,
    .fault .unsupportedAluOperation, .fault .stackOverflow, .fault .stackUnderflow,
    .fault .invalidRegisterIndex, .fault .invalidInterruptNumber].map HaltReason.code =
    [0, 1, 2, 3, 4, 5, 6, 7, 8] ∧ ∀ r q : HaltReason, r.code = q.code → r = q

/-- The stacked flags byte: bit 0 E, bit 1 G, bit 2 L, the rest 0 when written and ignored when
restored. The rule follows the spec's own decision D5 (92_eei_decisions.md). (R25) -/
def Obligations.FlagsByteIsLGE : Prop :=
  (∀ f : Flags, f.toByte.getLsbD 0 = f.e ∧ f.toByte.getLsbD 1 = f.g ∧ f.toByte.getLsbD 2 = f.l ∧
    (∀ k, 3 ≤ k → f.toByte.getLsbD k = false) ∧ Flags.ofByte f.toByte = f) ∧
  ∀ v : Byte, (Flags.ofByte v).e = v.getLsbD 0 ∧ (Flags.ofByte v).g = v.getLsbD 1 ∧
    (Flags.ofByte v).l = v.getLsbD 2

/-- ADD then SUB with the same two distinct registers restores every register. (R120, R121, R138) -/
def Obligations.AddThenSubRestores : Prop :=
  ∀ (ra rb : Reg) (s : State), ra ≠ rb →
    ∃ t u, exec (.add ra.toByte rb.toByte) s = .next t ∧ exec (.sub ra.toByte rb.toByte) t = .next u ∧
      u.regs = s.regs

/-- floor(a/b)*b + (a mod b) = a for the results of DIV and MOD. (R123, R124, R138) -/
def Obligations.DivAndModRecomposeTheDividend : Prop :=
  ∀ (ra rb : Reg) (s : State), s.readReg rb ≠ 0 →
    ∃ t u, exec (.div ra.toByte rb.toByte) s = .next t ∧ exec (.mod ra.toByte rb.toByte) s = .next u ∧
      (t.readReg ra).toNat * (s.readReg rb).toNat + (u.readReg ra).toNat = (s.readReg ra).toNat ∧
      (u.readReg ra).toNat < (s.readReg rb).toNat

/-- A byte stored into the image is the byte the next fetch of that address gives. (R58, R61) -/
def Obligations.StoredByteIsFetchedNext : Prop :=
  ∀ (ra rb : Reg) (s : State), (∃ v, s.fetch (s.readReg ra).toNat = some v) →
    ∃ t, exec (.st ra.toByte rb.toByte) s = .next t ∧
      t.fetch (s.readReg ra).toNat = some (s.readReg rb) ∧
      ∀ addr, addr ≠ (s.readReg ra).toNat → t.fetch addr = s.fetch addr

/-- After its load a run takes no further load until a new reset, which lets the next load happen as
the first did. The mark that the load has happened is the model's own (log 8); that a load needs a
reset is the spec's own decision D25 (R250). (R250, R255) -/
def Obligations.LoadingAgainNeedsANewReset : Prop :=
  ∀ (cfg : Config) (image again : List Byte) (s t : State), (State.resetWith cfg).load image = .ok s →
    Reaches s t → t.load again = .error .notReset ∧ t.assertReset = State.resetWith cfg ∧
      t.assertReset.load again = (State.resetWith cfg).load again
end

