-- ==== Sys2Proof/Laws/Decode.lean ====
section
/-! SUPPORT. The opcode table as the decoder reads it. -/

namespace Sys2Proof

/-- The lookup finds exactly a row of the table with that opcode byte. -/
theorem lookupOpcode_mem {op : Byte} {row : OpcodeRow} (h : lookupOpcode op = some row) :
    row ∈ opcodeTable ∧ row.opcode = op :=
  ⟨List.mem_of_find?_eq_some h, by simpa using List.find?_some h⟩

/-- Every row carries its mnemonic's opcode byte and at most two operands. -/
theorem opcodeTable_row : ∀ row ∈ opcodeTable,
    row.mnemonic.opcode = row.opcode ∧ row.operandCount ≤ 2 ∧
      lookupOpcode row.opcode = some row := by decide

/-- The row of an instruction: its opcode byte is found, with its number of operand bytes. -/
theorem lookupOpcode_instr (i : Instr) : ∃ row, lookupOpcode i.mnemonic.opcode = some row ∧
    row.mnemonic = i.mnemonic ∧ row.opcode = i.mnemonic.opcode ∧
      row.operandCount = i.operands.length := by
  cases i <;> exact ⟨_, rfl, rfl, rfl, rfl⟩

@[simp] theorem Mnemonic.instr_mnemonic (m : Mnemonic) (a b : Byte) : (m.instr a b).mnemonic = m := by
  cases m <;> rfl

/-- A row's operand count is the number of operand bytes of the instruction it builds, and those are
the first of A, B. -/
theorem operands_instr : ∀ {row : OpcodeRow}, row ∈ opcodeTable → ∀ a b : Byte,
    (row.mnemonic.instr a b).operands = [a, b].take row.operandCount := by
  intro row h a b
  have : ∀ row ∈ opcodeTable, ∃ m n, row.mnemonic = m ∧ row.operandCount = n ∧
      (m, n) ∈ opcodeTable.map fun r => (r.mnemonic, r.operandCount) := fun r hr =>
    ⟨_, _, rfl, rfl, List.mem_map.mpr ⟨r, hr, rfl⟩⟩
  obtain ⟨m, n, hm, hn, hmem⟩ := this row h
  rw [hm, hn]
  cases m <;> simp [opcodeTable, opcodeRows0, opcodeRows1, opcodeRows2] at hmem <;> subst hmem <;> rfl

/-- An instruction is what its mnemonic makes of its operand bytes. -/
theorem Instr.eq_instr (i : Instr) :
    i = i.mnemonic.instr (i.operands.getD 0 0) (i.operands.getD 1 0) := by
  cases i <;> rfl

/-- What `decode` answers when it answers an instruction. -/
theorem decode_ok {op : Byte} {rest rest' : List Byte} {i : Instr}
    (h : decode (op :: rest) = .ok (i, rest')) : ∃ row a b, lookupOpcode op = some row ∧
      i = row.mnemonic.instr a b ∧ rest = [a, b].take row.operandCount ++ rest' := by
  cases hrow : lookupOpcode op with
  | none => simp [decode, hrow] at h
  | some row =>
    simp only [decode, hrow] at h
    split at h <;> cases h
    · rename_i hn; exact ⟨row, 0, 0, rfl, rfl, by simp [hn]⟩
    · rename_i a hn; exact ⟨row, a, 0, rfl, rfl, by simp [hn]⟩
    · rename_i a b hn; exact ⟨row, a, b, rfl, rfl, by simp [hn]⟩

end Sys2Proof
end

