-- ==== Sys2Proof/Laws/State.lean ====
section
/-! SUPPORT. One lemma per field per update of State, so that no proof unfolds a record update. -/

namespace Sys2Proof.Machine

variable (s : State)

/-! ### setPc -/

@[simp] theorem State.setPc_cfg (p : PcWord) : (s.setPc p).cfg = s.cfg := rfl
@[simp] theorem State.setPc_loaded (p : PcWord) : (s.setPc p).loaded = s.loaded := rfl
@[simp] theorem State.setPc_regs (p : PcWord) : (s.setPc p).regs = s.regs := rfl
@[simp] theorem State.setPc_pc (p : PcWord) : (s.setPc p).pc = p := rfl
@[simp] theorem State.setPc_flags (p : PcWord) : (s.setPc p).flags = s.flags := rfl
@[simp] theorem State.setPc_status (p : PcWord) : (s.setPc p).status = s.status := rfl
@[simp] theorem State.setPc_imgStart (p : PcWord) : (s.setPc p).imgStart = s.imgStart := rfl
@[simp] theorem State.setPc_imgEnd (p : PcWord) : (s.setPc p).imgEnd = s.imgEnd := rfl
@[simp] theorem State.setPc_mem (p : PcWord) : (s.setPc p).mem = s.mem := rfl
@[simp] theorem State.setPc_err (p : PcWord) : (s.setPc p).err = s.err := rfl
@[simp] theorem State.setPc_out (p : PcWord) : (s.setPc p).out = s.out := rfl
@[simp] theorem State.setPc_readReg (p : PcWord) (q : Reg) : (s.setPc p).readReg q = s.readReg q := rfl
@[simp] theorem State.setPc_readMem (p : PcWord) (x : Byte) : (s.setPc p).readMem x = s.readMem x := rfl
@[simp] theorem State.setPc_stackLimit (p : PcWord) : (s.setPc p).stackLimit = s.stackLimit := rfl

/-! ### advance -/

@[simp] theorem State.advance_cfg (n : Nat) : (s.advance n).cfg = s.cfg := rfl
@[simp] theorem State.advance_loaded (n : Nat) : (s.advance n).loaded = s.loaded := rfl
@[simp] theorem State.advance_regs (n : Nat) : (s.advance n).regs = s.regs := rfl
@[simp] theorem State.advance_pc (n : Nat) : (s.advance n).pc = s.seq n := rfl
@[simp] theorem State.advance_flags (n : Nat) : (s.advance n).flags = s.flags := rfl
@[simp] theorem State.advance_status (n : Nat) : (s.advance n).status = s.status := rfl
@[simp] theorem State.advance_imgStart (n : Nat) : (s.advance n).imgStart = s.imgStart := rfl
@[simp] theorem State.advance_imgEnd (n : Nat) : (s.advance n).imgEnd = s.imgEnd := rfl
@[simp] theorem State.advance_mem (n : Nat) : (s.advance n).mem = s.mem := rfl
@[simp] theorem State.advance_err (n : Nat) : (s.advance n).err = s.err := rfl
@[simp] theorem State.advance_out (n : Nat) : (s.advance n).out = s.out := rfl
@[simp] theorem State.advance_readReg (n : Nat) (q : Reg) : (s.advance n).readReg q = s.readReg q := rfl
@[simp] theorem State.advance_readMem (n : Nat) (x : Byte) : (s.advance n).readMem x = s.readMem x := rfl
@[simp] theorem State.advance_stackLimit (n : Nat) : (s.advance n).stackLimit = s.stackLimit := rfl

/-! ### jump -/

@[simp] theorem State.jump_cfg (v : Byte) : (s.jump v).cfg = s.cfg := rfl
@[simp] theorem State.jump_loaded (v : Byte) : (s.jump v).loaded = s.loaded := rfl
@[simp] theorem State.jump_regs (v : Byte) : (s.jump v).regs = s.regs := rfl
@[simp] theorem State.jump_pc (v : Byte) : (s.jump v).pc = v.zeroExtend 9 := rfl
@[simp] theorem State.jump_flags (v : Byte) : (s.jump v).flags = s.flags := rfl
@[simp] theorem State.jump_status (v : Byte) : (s.jump v).status = s.status := rfl
@[simp] theorem State.jump_imgStart (v : Byte) : (s.jump v).imgStart = s.imgStart := rfl
@[simp] theorem State.jump_imgEnd (v : Byte) : (s.jump v).imgEnd = s.imgEnd := rfl
@[simp] theorem State.jump_mem (v : Byte) : (s.jump v).mem = s.mem := rfl
@[simp] theorem State.jump_err (v : Byte) : (s.jump v).err = s.err := rfl
@[simp] theorem State.jump_out (v : Byte) : (s.jump v).out = s.out := rfl
@[simp] theorem State.jump_readReg (v : Byte) (q : Reg) : (s.jump v).readReg q = s.readReg q := rfl
@[simp] theorem State.jump_readMem (v : Byte) (x : Byte) : (s.jump v).readMem x = s.readMem x := rfl
@[simp] theorem State.jump_stackLimit (v : Byte) : (s.jump v).stackLimit = s.stackLimit := rfl

/-! ### setFlags -/

@[simp] theorem State.setFlags_cfg (f : Flags) : (s.setFlags f).cfg = s.cfg := rfl
@[simp] theorem State.setFlags_loaded (f : Flags) : (s.setFlags f).loaded = s.loaded := rfl
@[simp] theorem State.setFlags_regs (f : Flags) : (s.setFlags f).regs = s.regs := rfl
@[simp] theorem State.setFlags_pc (f : Flags) : (s.setFlags f).pc = s.pc := rfl
@[simp] theorem State.setFlags_flags (f : Flags) : (s.setFlags f).flags = f := rfl
@[simp] theorem State.setFlags_status (f : Flags) : (s.setFlags f).status = s.status := rfl
@[simp] theorem State.setFlags_imgStart (f : Flags) : (s.setFlags f).imgStart = s.imgStart := rfl
@[simp] theorem State.setFlags_imgEnd (f : Flags) : (s.setFlags f).imgEnd = s.imgEnd := rfl
@[simp] theorem State.setFlags_mem (f : Flags) : (s.setFlags f).mem = s.mem := rfl
@[simp] theorem State.setFlags_err (f : Flags) : (s.setFlags f).err = s.err := rfl
@[simp] theorem State.setFlags_out (f : Flags) : (s.setFlags f).out = s.out := rfl
@[simp] theorem State.setFlags_readReg (f : Flags) (q : Reg) : (s.setFlags f).readReg q = s.readReg q := rfl
@[simp] theorem State.setFlags_readMem (f : Flags) (x : Byte) : (s.setFlags f).readMem x = s.readMem x := rfl
@[simp] theorem State.setFlags_stackLimit (f : Flags) : (s.setFlags f).stackLimit = s.stackLimit := rfl

/-! ### emit -/

@[simp] theorem State.emit_cfg (ev : OutputEvent) : (s.emit ev).cfg = s.cfg := rfl
@[simp] theorem State.emit_loaded (ev : OutputEvent) : (s.emit ev).loaded = s.loaded := rfl
@[simp] theorem State.emit_regs (ev : OutputEvent) : (s.emit ev).regs = s.regs := rfl
@[simp] theorem State.emit_pc (ev : OutputEvent) : (s.emit ev).pc = s.pc := rfl
@[simp] theorem State.emit_flags (ev : OutputEvent) : (s.emit ev).flags = s.flags := rfl
@[simp] theorem State.emit_status (ev : OutputEvent) : (s.emit ev).status = s.status := rfl
@[simp] theorem State.emit_imgStart (ev : OutputEvent) : (s.emit ev).imgStart = s.imgStart := rfl
@[simp] theorem State.emit_imgEnd (ev : OutputEvent) : (s.emit ev).imgEnd = s.imgEnd := rfl
@[simp] theorem State.emit_mem (ev : OutputEvent) : (s.emit ev).mem = s.mem := rfl
@[simp] theorem State.emit_err (ev : OutputEvent) : (s.emit ev).err = s.err := rfl
@[simp] theorem State.emit_out (ev : OutputEvent) : (s.emit ev).out = s.out ++ [ev] := rfl
@[simp] theorem State.emit_readReg (ev : OutputEvent) (q : Reg) : (s.emit ev).readReg q = s.readReg q := rfl
@[simp] theorem State.emit_readMem (ev : OutputEvent) (x : Byte) : (s.emit ev).readMem x = s.readMem x := rfl
@[simp] theorem State.emit_stackLimit (ev : OutputEvent) : (s.emit ev).stackLimit = s.stackLimit := rfl

/-! ### halt -/

@[simp] theorem State.halt_cfg (h : HaltReason) : (s.halt h).cfg = s.cfg := rfl
@[simp] theorem State.halt_loaded (h : HaltReason) : (s.halt h).loaded = s.loaded := rfl
@[simp] theorem State.halt_regs (h : HaltReason) : (s.halt h).regs = s.regs := rfl
@[simp] theorem State.halt_pc (h : HaltReason) : (s.halt h).pc = s.pc := rfl
@[simp] theorem State.halt_flags (h : HaltReason) : (s.halt h).flags = s.flags := rfl
@[simp] theorem State.halt_status (h : HaltReason) : (s.halt h).status = .halted h := rfl
@[simp] theorem State.halt_imgStart (h : HaltReason) : (s.halt h).imgStart = s.imgStart := rfl
@[simp] theorem State.halt_imgEnd (h : HaltReason) : (s.halt h).imgEnd = s.imgEnd := rfl
@[simp] theorem State.halt_mem (h : HaltReason) : (s.halt h).mem = s.mem := rfl
@[simp] theorem State.halt_err (h : HaltReason) : (s.halt h).err = s.err := rfl
@[simp] theorem State.halt_out (h : HaltReason) : (s.halt h).out = s.out := rfl
@[simp] theorem State.halt_readReg (h : HaltReason) (q : Reg) : (s.halt h).readReg q = s.readReg q := rfl
@[simp] theorem State.halt_readMem (h : HaltReason) (x : Byte) : (s.halt h).readMem x = s.readMem x := rfl
@[simp] theorem State.halt_stackLimit (h : HaltReason) : (s.halt h).stackLimit = s.stackLimit := rfl

/-! ### raise -/

@[simp] theorem State.raise_cfg (f : FaultName) (b : Option Byte) : (s.raise f b).cfg = s.cfg := rfl
@[simp] theorem State.raise_loaded (f : FaultName) (b : Option Byte) : (s.raise f b).loaded = s.loaded := rfl
@[simp] theorem State.raise_regs (f : FaultName) (b : Option Byte) : (s.raise f b).regs = s.regs := rfl
@[simp] theorem State.raise_pc (f : FaultName) (b : Option Byte) : (s.raise f b).pc = s.pc := rfl
@[simp] theorem State.raise_flags (f : FaultName) (b : Option Byte) : (s.raise f b).flags = s.flags := rfl
@[simp] theorem State.raise_status (f : FaultName) (b : Option Byte) : (s.raise f b).status = .halted (.fault f) := rfl
@[simp] theorem State.raise_imgStart (f : FaultName) (b : Option Byte) : (s.raise f b).imgStart = s.imgStart := rfl
@[simp] theorem State.raise_imgEnd (f : FaultName) (b : Option Byte) : (s.raise f b).imgEnd = s.imgEnd := rfl
@[simp] theorem State.raise_mem (f : FaultName) (b : Option Byte) : (s.raise f b).mem = s.mem := rfl
@[simp] theorem State.raise_err (f : FaultName) (b : Option Byte) : (s.raise f b).err = some { reason := f, addr := s.pc, byte := b } := rfl
@[simp] theorem State.raise_out (f : FaultName) (b : Option Byte) : (s.raise f b).out = s.out := rfl
@[simp] theorem State.raise_readReg (f : FaultName) (b : Option Byte) (q : Reg) : (s.raise f b).readReg q = s.readReg q := rfl
@[simp] theorem State.raise_readMem (f : FaultName) (b : Option Byte) (x : Byte) : (s.raise f b).readMem x = s.readMem x := rfl
@[simp] theorem State.raise_stackLimit (f : FaultName) (b : Option Byte) : (s.raise f b).stackLimit = s.stackLimit := rfl

/-! ### writeReg -/

@[simp] theorem State.writeReg_cfg (r : Reg) (v : Byte) : (s.writeReg r v).cfg = s.cfg := rfl
@[simp] theorem State.writeReg_loaded (r : Reg) (v : Byte) : (s.writeReg r v).loaded = s.loaded := rfl
@[simp] theorem State.writeReg_regs (r : Reg) (v : Byte) : (s.writeReg r v).regs = s.regs.set r v := rfl
@[simp] theorem State.writeReg_pc (r : Reg) (v : Byte) : (s.writeReg r v).pc = s.pc := rfl
@[simp] theorem State.writeReg_flags (r : Reg) (v : Byte) : (s.writeReg r v).flags = s.flags := rfl
@[simp] theorem State.writeReg_status (r : Reg) (v : Byte) : (s.writeReg r v).status = s.status := rfl
@[simp] theorem State.writeReg_imgStart (r : Reg) (v : Byte) : (s.writeReg r v).imgStart = s.imgStart := rfl
@[simp] theorem State.writeReg_imgEnd (r : Reg) (v : Byte) : (s.writeReg r v).imgEnd = s.imgEnd := rfl
@[simp] theorem State.writeReg_mem (r : Reg) (v : Byte) : (s.writeReg r v).mem = s.mem := rfl
@[simp] theorem State.writeReg_err (r : Reg) (v : Byte) : (s.writeReg r v).err = s.err := rfl
@[simp] theorem State.writeReg_out (r : Reg) (v : Byte) : (s.writeReg r v).out = s.out := rfl
@[simp] theorem State.writeReg_readMem (r : Reg) (v : Byte) (x : Byte) : (s.writeReg r v).readMem x = s.readMem x := rfl
@[simp] theorem State.writeReg_stackLimit (r : Reg) (v : Byte) : (s.writeReg r v).stackLimit = s.stackLimit := rfl

/-! ### writeMem -/

@[simp] theorem State.writeMem_cfg (a v : Byte) : (s.writeMem a v).cfg = s.cfg := rfl
@[simp] theorem State.writeMem_loaded (a v : Byte) : (s.writeMem a v).loaded = s.loaded := rfl
@[simp] theorem State.writeMem_regs (a v : Byte) : (s.writeMem a v).regs = s.regs := rfl
@[simp] theorem State.writeMem_pc (a v : Byte) : (s.writeMem a v).pc = s.pc := rfl
@[simp] theorem State.writeMem_flags (a v : Byte) : (s.writeMem a v).flags = s.flags := rfl
@[simp] theorem State.writeMem_status (a v : Byte) : (s.writeMem a v).status = s.status := rfl
@[simp] theorem State.writeMem_imgStart (a v : Byte) : (s.writeMem a v).imgStart = s.imgStart := rfl
@[simp] theorem State.writeMem_imgEnd (a v : Byte) : (s.writeMem a v).imgEnd = s.imgEnd := rfl
@[simp] theorem State.writeMem_mem (a v : Byte) : (s.writeMem a v).mem = s.mem.write a v := rfl
@[simp] theorem State.writeMem_err (a v : Byte) : (s.writeMem a v).err = s.err := rfl
@[simp] theorem State.writeMem_out (a v : Byte) : (s.writeMem a v).out = s.out := rfl
@[simp] theorem State.writeMem_readReg (a v : Byte) (q : Reg) : (s.writeMem a v).readReg q = s.readReg q := rfl
@[simp] theorem State.writeMem_stackLimit (a v : Byte) : (s.writeMem a v).stackLimit = s.stackLimit := rfl

end Sys2Proof.Machine
end

