-- ==== Sys2Proof/Laws/Memory.lean ====
section
/-! SUPPORT. Memory: a read after a write, and the canonical form, kept by every memory operation. -/

namespace Sys2Proof.Machine

theorem Memory.read_dropCell_same (m : Memory) (a : Byte) :
    (m.dropCell a.toNat).read a = Memory.unlisted := by
  induction m with
  | nil => rfl
  | cons c m ih =>
    unfold Memory.dropCell at ih ⊢
    by_cases h : c.1 = a.toNat <;> simp_all [Memory.read]

theorem Memory.read_dropCell_other (m : Memory) {a x : Byte} (hx : x ≠ a) :
    (m.dropCell a.toNat).read x = m.read x := by
  have hne : a.toNat ≠ x.toNat := fun h => hx (BitVec.eq_of_toNat_eq h.symm)
  induction m with
  | nil => rfl
  | cons c m ih =>
    unfold Memory.dropCell at ih ⊢
    by_cases h : c.1 = a.toNat
    · simp_all [Memory.read]
    · by_cases h' : c.1 = x.toNat <;> simp_all [Memory.read]

theorem Memory.read_putCell_same (m : Memory) (a v : Byte) (h : ∀ c ∈ m, c.1 ≠ a.toNat) :
    (m.putCell a.toNat v).read a = v := by
  induction m with
  | nil => simp [Memory.putCell, Memory.read]
  | cons c m ih =>
    unfold Memory.putCell
    split
    · simp [Memory.read]
    · simp_all [Memory.read]

theorem Memory.read_putCell_other (m : Memory) {a x : Byte} (v : Byte) (hx : x ≠ a) :
    (m.putCell a.toNat v).read x = m.read x := by
  have hne : a.toNat ≠ x.toNat := fun h => hx (BitVec.eq_of_toNat_eq h.symm)
  induction m with
  | nil => simp [Memory.putCell, Memory.read, hne]
  | cons c m ih =>
    unfold Memory.putCell
    split
    · simp [Memory.read, hne]
    · by_cases h' : c.1 = x.toNat <;> simp_all [Memory.read]

/-- A read after a write to the same address gives the value written. -/
@[simp] theorem Memory.read_write_same (m : Memory) (a v : Byte) : (m.write a v).read a = v := by
  unfold Memory.write
  split
  · rename_i h; rw [Memory.read_dropCell_same, h]
  · refine Memory.read_putCell_same _ a v fun c hc => ?_
    simpa using (List.mem_filter.mp hc).2

/-- A write leaves every other address alone. -/
theorem Memory.read_write_other (m : Memory) {a x : Byte} (v : Byte) (hx : x ≠ a) :
    (m.write a v).read x = m.read x := by
  unfold Memory.write
  split
  · exact Memory.read_dropCell_other m hx
  · rw [Memory.read_putCell_other _ v hx, Memory.read_dropCell_other m hx]

theorem Memory.read_write (m : Memory) (a v x : Byte) :
    (m.write a v).read x = if x = a then v else m.read x := by
  split
  · rename_i h; subst h; simp
  · rename_i h; exact Memory.read_write_other m v h

@[simp] theorem State.readMem_writeMem_same (s : State) (a v : Byte) : (s.writeMem a v).readMem a = v :=
  Memory.read_write_same _ _ _

theorem State.readMem_writeMem (s : State) (a v x : Byte) :
    (s.writeMem a v).readMem x = if x = a then v else s.readMem x :=
  Memory.read_write _ _ _ _

/-! ### The canonical form -/

theorem Memory.wf_nil : Memory.wf [] := by simp [Memory.wf]

theorem Memory.dropCell_wf {m : Memory} (h : m.wf) (k : Nat) : (m.dropCell k).wf :=
  ⟨h.1.filter _, fun c hc => h.2 c (List.mem_filter.mp hc).1⟩

theorem Memory.mem_putCell {m : Memory} {k : Nat} {v : Byte} {c : Host.Cell} :
    c ∈ m.putCell k v ↔ c = (k, v) ∨ c ∈ m := by
  induction m with
  | nil => simp [Memory.putCell]
  | cons d m ih =>
    unfold Memory.putCell
    split
    · simp
    · simp only [List.mem_cons, ih]; tauto

theorem Memory.putCell_wf {m : Memory} (h : m.wf) {k : Nat} {v : Byte} (hk : k < 256)
    (hv : v ≠ Memory.unlisted) (hne : ∀ c ∈ m, c.1 ≠ k) : (m.putCell k v).wf := by
  refine ⟨?_, fun c hc => ?_⟩
  · have hp := h.1
    clear h hv
    induction m with
    | nil => simp [Memory.putCell]
    | cons d m ih =>
      obtain ⟨hd, hm⟩ := List.pairwise_cons.mp hp
      unfold Memory.putCell
      split
      · rename_i hlt
        refine List.pairwise_cons.mpr ⟨fun c hc => ?_, hp⟩
        rcases List.mem_cons.mp hc with rfl | hc
        · exact hlt
        · exact Nat.lt_trans hlt (hd c hc)
      · refine List.pairwise_cons.mpr ⟨fun c hc => ?_, ih (fun c hc => hne c (.tail _ hc)) hm⟩
        rcases Memory.mem_putCell.mp hc with rfl | hc
        · have := hne d (.head _); simp only; omega
        · exact hd c hc
  · rcases Memory.mem_putCell.mp hc with rfl | hc
    · exact ⟨hk, hv⟩
    · exact h.2 c hc

/-- A write keeps the canonical form. -/
theorem Memory.write_wf {m : Memory} (h : m.wf) (a v : Byte) : (m.write a v).wf := by
  unfold Memory.write
  split
  · exact Memory.dropCell_wf h _
  · rename_i hv
    refine Memory.putCell_wf (Memory.dropCell_wf h _) a.isLt hv fun c hc => ?_
    simpa using (List.mem_filter.mp hc).2

/-- Writing a run of bytes keeps the canonical form. -/
theorem Memory.writeBytes_wf {m : Memory} (h : m.wf) (a : Nat) (vs : List Byte) :
    (m.writeBytes a vs).wf := by
  induction vs generalizing m a with
  | nil => exact h
  | cons v vs ih =>
    unfold Memory.writeBytes
    split
    · exact ih (Memory.write_wf h _ _) _
    · exact ih h _

/-- The reset memory has the canonical form. -/
theorem State.resetWith_mem_wf (cfg : Config) : (State.resetWith cfg).mem.wf := Memory.wf_nil

/-- The cells of a run of bytes written at `a` hold them, and the other cells what they held. -/
theorem Memory.read_writeBytes (m : Memory) (a : Nat) (vs : List Byte) (x : Byte)
    (hfit : a + vs.length ≤ 256) :
    (m.writeBytes a vs).read x =
      if h : a ≤ x.toNat ∧ x.toNat - a < vs.length then vs[x.toNat - a]'h.2 else m.read x := by
  induction vs generalizing m a with
  | nil => simp [Memory.writeBytes]
  | cons v vs ih =>
    simp only [List.length_cons] at hfit
    have ha : a ≤ 255 := by omega
    have hto : (BitVec.ofNat 8 a).toNat = a := by simp; omega
    rw [Memory.writeBytes, if_pos ha, ih _ _ (by omega), Memory.read_write]
    by_cases hx : x = BitVec.ofNat 8 a
    · have hxa : x.toNat = a := by rw [hx]; exact hto
      rw [dif_neg (by omega), if_pos hx, dif_pos (by simp only [List.length_cons]; omega)]
      simp [hxa]
    · have hxa : x.toNat ≠ a := fun h => hx (BitVec.eq_of_toNat_eq (by rw [hto]; exact h))
      rw [if_neg hx]
      by_cases hin : a + 1 ≤ x.toNat ∧ x.toNat - (a + 1) < vs.length
      · rw [dif_pos hin, dif_pos (by simp only [List.length_cons]; omega)]
        have e : x.toNat - a = (x.toNat - (a + 1)) + 1 := by omega
        simp [e]
      · rw [dif_neg hin, dif_neg (by simp only [List.length_cons]; omega)]

end Sys2Proof.Machine
end

