-- ==== Sys2Proof/Laws/Regs.lean ====
section
/-! SUPPORT. The register file, register operand bytes, and the stack pointer's moves. -/

namespace Sys2Proof

theorem Reg.ofByte?_toByte (r : Reg) : Reg.ofByte? r.toByte = some r := by cases r <;> rfl

theorem Reg.toByte_toNat_le (r : Reg) : r.toByte.toNat ≤ 7 := by cases r <;> decide

/-- A byte names a register exactly if it is that register's byte. -/
theorem Reg.ofByte?_eq_some : ∀ {a : Byte} {r : Reg}, Reg.ofByte? a = some r ↔ a = r.toByte := by
  intro a r
  constructor
  · intro h
    unfold Reg.ofByte? at h
    apply BitVec.eq_of_toNat_eq
    split at h <;> simp_all <;> subst h <;> rfl
  · rintro rfl; exact Reg.ofByte?_toByte r

/-- A byte names no register exactly if it is above 7. -/
theorem Reg.ofByte?_eq_none {a : Byte} : Reg.ofByte? a = none ↔ 7 < a.toNat := by
  unfold Reg.ofByte?
  split <;> simp_all
  omega

theorem isRegisterByte_iff {a : Byte} : isRegisterByte a = true ↔ ∃ r : Reg, a = r.toByte := by
  constructor
  · intro h
    cases hr : Reg.ofByte? a with
    | some r => exact ⟨r, Reg.ofByte?_eq_some.mp hr⟩
    | none =>
      have := Reg.ofByte?_eq_none.mp hr
      simp only [isRegisterByte, decide_eq_true_eq] at h
      omega
  · rintro ⟨r, rfl⟩
    simpa [isRegisterByte] using r.toByte_toNat_le

end Sys2Proof

namespace Sys2Proof.Machine

theorem Regs.get_set (f : Regs) (r q : Reg) (v : Byte) :
    (f.set r v).get q = if q = r then v else f.get q := by
  cases r <;> cases q <;> rfl

@[simp] theorem State.readReg_writeReg_same (s : State) (r : Reg) (v : Byte) :
    (s.writeReg r v).readReg r = v := by
  simp [State.readReg, State.writeReg, Regs.get_set]

theorem State.readReg_writeReg (s : State) (r q : Reg) (v : Byte) :
    (s.writeReg r v).readReg q = if q = r then v else s.readReg q := Regs.get_set _ _ _ _

theorem State.readReg_writeReg_other (s : State) {r q : Reg} (v : Byte) (h : q ≠ r) :
    (s.writeReg r v).readReg q = s.readReg q := by
  rw [State.readReg_writeReg, if_neg h]

/-- Two register files with equal registers are equal. -/
theorem Regs.ext_get {f g : Regs} (h : ∀ r, f.get r = g.get r) : f = g := by
  have h0 := h .r0; have h1 := h .r1; have h2 := h .r2; have h3 := h .r3
  have h4 := h .r4; have h5 := h .r5; have h6 := h .r6; have h7 := h .r7
  cases f; cases g
  simp_all [Regs.get]

theorem trunc8_natCast (n : Nat) : trunc8 (n : Int) = BitVec.ofNat 8 n := by
  simp [trunc8]

theorem trunc8_succ (v : Byte) : trunc8 (v.toNat + 1) = v + 1 := by
  have : ((v.toNat : Int) + 1) = ((v.toNat + 1 : Nat) : Int) := by norm_cast
  rw [this, trunc8_natCast]
  apply BitVec.eq_of_toNat_eq
  simp

theorem trunc8_pred (v : Byte) : trunc8 (v.toNat - 1) = v - 1 := by
  apply BitVec.eq_of_toNat_eq
  have := v.isLt
  have h1 : (1 : Byte).toNat = 1 := rfl
  simp only [trunc8, BitVec.toNat_ofInt, BitVec.toNat_sub, h1]
  omega

theorem State.decSp_eq (s : State) : s.decSp = s.writeReg .r7 (s.readReg .r7 - 1) := by
  rw [State.decSp, trunc8_pred]

theorem State.incSp_eq (s : State) : s.incSp = s.writeReg .r7 (s.readReg .r7 + 1) := by
  rw [State.incSp, trunc8_succ]

end Sys2Proof.Machine
end

