-- ==== Sys2Proof/Laws/Ops.lean ====
section
/-! SUPPORT. One lemma per shared operation: all it can do. Provers cite these instead of unfolding. -/

namespace Sys2Proof.Machine

/-! ### The stack -/

theorem State.pushLegal_iff (s : State) : s.pushLegal = true ↔
    s.cfg.stackCheck = false ∨
      (s.stackLimit + 1 ≤ (s.readReg .r7).toNat ∧ (s.readReg .r7).toNat ≤ s.cfg.spInit.toNat) := by
  simp [State.pushLegal]

theorem State.popLegal_iff (s : State) : s.popLegal = true ↔
    s.cfg.stackCheck = false ∨
      (s.stackLimit ≤ (s.readReg .r7).toNat ∧ (s.readReg .r7).toNat + 1 ≤ s.cfg.spInit.toNat) := by
  simp [State.popLegal]

/-- The state a push leaves: R7 one lower, the byte stored where it points. -/
def State.pushed (s : State) (e : State → Byte) : State :=
  (s.writeReg .r7 (s.readReg .r7 - 1)).writeMem (s.readReg .r7 - 1)
    (e (s.writeReg .r7 (s.readReg .r7 - 1)))

theorem push8_eq (e : State → Byte) (s : State) :
    push8 e s = if s.pushLegal then .ok (s.pushed e) else .error .stackOverflow := by
  simp [push8, State.pushed, State.decSp_eq]

theorem push8_ok {e : State → Byte} {s t : State} :
    push8 e s = .ok t ↔ s.pushLegal = true ∧ t = s.pushed e := by
  rw [push8_eq]
  split <;> rename_i h <;> simp [h]
  exact eq_comm

theorem push8_error {e : State → Byte} {s : State} {f : FaultName} :
    push8 e s = .error f ↔ s.pushLegal = false ∧ f = .stackOverflow := by
  rw [push8_eq]
  split <;> rename_i h <;> simp [h]
  exact eq_comm

@[simp] theorem State.pushed_cfg (s : State) (e) : (s.pushed e).cfg = s.cfg := rfl
@[simp] theorem State.pushed_loaded (s : State) (e) : (s.pushed e).loaded = s.loaded := rfl
@[simp] theorem State.pushed_pc (s : State) (e) : (s.pushed e).pc = s.pc := rfl
@[simp] theorem State.pushed_flags (s : State) (e) : (s.pushed e).flags = s.flags := rfl
@[simp] theorem State.pushed_status (s : State) (e) : (s.pushed e).status = s.status := rfl
@[simp] theorem State.pushed_imgStart (s : State) (e) : (s.pushed e).imgStart = s.imgStart := rfl
@[simp] theorem State.pushed_imgEnd (s : State) (e) : (s.pushed e).imgEnd = s.imgEnd := rfl
@[simp] theorem State.pushed_err (s : State) (e) : (s.pushed e).err = s.err := rfl
@[simp] theorem State.pushed_out (s : State) (e) : (s.pushed e).out = s.out := rfl
@[simp] theorem State.pushed_stackLimit (s : State) (e) : (s.pushed e).stackLimit = s.stackLimit := rfl

theorem State.pushed_readReg (s : State) (e : State → Byte) (q : Reg) :
    (s.pushed e).readReg q = if q = .r7 then s.readReg .r7 - 1 else s.readReg q := by
  simp [State.pushed, State.readReg_writeReg]

theorem State.pushed_readMem (s : State) (e : State → Byte) (x : Byte) :
    (s.pushed e).readMem x =
      if x = s.readReg .r7 - 1 then e (s.writeReg .r7 (s.readReg .r7 - 1)) else s.readMem x := by
  simp [State.pushed, State.readMem_writeMem]

theorem pop8_eq (s : State) :
    pop8 s = if s.popLegal then
      .ok (s.readMem (s.readReg .r7), s.writeReg .r7 (s.readReg .r7 + 1))
    else .error .stackUnderflow := by
  simp [pop8, State.incSp_eq]

theorem pop8_ok {s : State} {p : Byte × State} :
    pop8 s = .ok p ↔ s.popLegal = true ∧
      p = (s.readMem (s.readReg .r7), s.writeReg .r7 (s.readReg .r7 + 1)) := by
  rw [pop8_eq]
  split <;> rename_i h <;> simp [h]
  exact eq_comm

theorem pop8_error {s : State} {f : FaultName} :
    pop8 s = .error f ↔ s.popLegal = false ∧ f = .stackUnderflow := by
  rw [pop8_eq]
  split <;> rename_i h <;> simp [h]
  exact eq_comm

/-- The state `popreg(i)` leaves: for R7 the popped byte plus 1, for another register the popped byte
and R7 one higher. -/
def State.popped (s : State) (i : Reg) : State :=
  if i = .r7 then s.writeReg .r7 (s.readMem (s.readReg .r7) + 1)
  else (s.writeReg i (s.readMem (s.readReg .r7))).writeReg .r7 (s.readReg .r7 + 1)

theorem Regs.set_set (f : Regs) (r : Reg) (v w : Byte) : (f.set r v).set r w = f.set r w := by
  cases r <;> rfl

theorem popReg_eq (i : Reg) (s : State) :
    popReg i s = if s.popLegal then .ok (s.popped i) else .error .stackUnderflow := by
  unfold popReg State.popped
  rw [State.incSp_eq]
  split
  · by_cases h : i = .r7
    · subst h
      simp [State.writeReg, State.readReg, Regs.get_set, Regs.set_set]
    · simp [h, State.readReg_writeReg, Ne.symm h]
  · rfl

theorem popReg_ok {i : Reg} {s t : State} :
    popReg i s = .ok t ↔ s.popLegal = true ∧ t = s.popped i := by
  rw [popReg_eq]
  split <;> rename_i h <;> simp [h]
  exact eq_comm

theorem popReg_error {i : Reg} {s : State} {f : FaultName} :
    popReg i s = .error f ↔ s.popLegal = false ∧ f = .stackUnderflow := by
  rw [popReg_eq]
  split <;> rename_i h <;> simp [h]
  exact eq_comm

@[simp] theorem State.popped_cfg (s : State) (i) : (s.popped i).cfg = s.cfg := by
  unfold State.popped; split <;> rfl
@[simp] theorem State.popped_loaded (s : State) (i) : (s.popped i).loaded = s.loaded := by
  unfold State.popped; split <;> rfl
@[simp] theorem State.popped_pc (s : State) (i) : (s.popped i).pc = s.pc := by
  unfold State.popped; split <;> rfl
@[simp] theorem State.popped_flags (s : State) (i) : (s.popped i).flags = s.flags := by
  unfold State.popped; split <;> rfl
@[simp] theorem State.popped_status (s : State) (i) : (s.popped i).status = s.status := by
  unfold State.popped; split <;> rfl
@[simp] theorem State.popped_imgStart (s : State) (i) : (s.popped i).imgStart = s.imgStart := by
  unfold State.popped; split <;> rfl
@[simp] theorem State.popped_imgEnd (s : State) (i) : (s.popped i).imgEnd = s.imgEnd := by
  unfold State.popped; split <;> rfl
@[simp] theorem State.popped_mem (s : State) (i) : (s.popped i).mem = s.mem := by
  unfold State.popped; split <;> rfl
@[simp] theorem State.popped_err (s : State) (i) : (s.popped i).err = s.err := by
  unfold State.popped; split <;> rfl
@[simp] theorem State.popped_out (s : State) (i) : (s.popped i).out = s.out := by
  unfold State.popped; split <;> rfl
@[simp] theorem State.popped_stackLimit (s : State) (i) : (s.popped i).stackLimit = s.stackLimit := by
  unfold State.popped; split <;> rfl
@[simp] theorem State.popped_readMem (s : State) (i) (x : Byte) :
    (s.popped i).readMem x = s.readMem x := by
  unfold State.popped; split <;> rfl

theorem State.popped_readReg (s : State) (i q : Reg) :
    (s.popped i).readReg q =
      if q = .r7 then (if i = .r7 then s.readMem (s.readReg .r7) + 1 else s.readReg .r7 + 1)
      else if q = i then s.readMem (s.readReg .r7) else s.readReg q := by
  unfold State.popped
  split
  · rename_i h; subst h
    by_cases hq : q = .r7 <;> simp [State.readReg_writeReg, hq]
  · by_cases hq : q = .r7 <;> simp [State.readReg_writeReg, hq]

/-- What any number of pushes leaves alone, and which fault they raise. -/
theorem pushAll_ok {es : List (State → Byte)} {s t : State} (h : pushAll es s = .ok t) :
    t.cfg = s.cfg ∧ t.pc = s.pc ∧ t.flags = s.flags ∧ t.status = s.status ∧ t.imgStart = s.imgStart ∧
      t.imgEnd = s.imgEnd ∧ t.err = s.err ∧ t.out = s.out ∧ (s.mem.wf → t.mem.wf) ∧
      t.loaded = s.loaded ∧ ∀ q, q ≠ .r7 → t.readReg q = s.readReg q := by
  induction es generalizing s with
  | nil => cases h; simp
  | cons e es ih =>
    unfold pushAll at h
    split at h
    · rename_i u hu
      obtain ⟨-, rfl⟩ := push8_ok.mp hu
      obtain ⟨h1, h2, h3, h4, h5, h6, h7, h8, h9, h10, h11⟩ := ih h
      refine ⟨h1, h2, h3, h4, h5, h6, h7, h8, fun hw => h9 (Memory.write_wf hw _ _), h10, fun q hq => ?_⟩
      rw [h11 q hq, State.pushed_readReg, if_neg hq]
    · cases h

theorem pushAll_error {es : List (State → Byte)} {s : State} {f : FaultName}
    (h : pushAll es s = .error f) : f = .stackOverflow := by
  induction es generalizing s with
  | nil => cases h
  | cons e es ih =>
    unfold pushAll at h
    split at h
    · exact ih h
    · rename_i g hg; cases h; exact (push8_error.mp hg).2

/-- What any number of register pops leaves alone, and which fault they raise. -/
theorem popRegs_ok {is : List Reg} {s t : State} (h : popRegs is s = .ok t) :
    t.cfg = s.cfg ∧ t.pc = s.pc ∧ t.flags = s.flags ∧ t.status = s.status ∧ t.imgStart = s.imgStart ∧
      t.imgEnd = s.imgEnd ∧ t.mem = s.mem ∧ t.err = s.err ∧ t.out = s.out ∧ t.loaded = s.loaded := by
  induction is generalizing s with
  | nil => cases h; simp
  | cons i is ih =>
    unfold popRegs at h
    split at h
    · rename_i u hu
      obtain ⟨-, rfl⟩ := popReg_ok.mp hu
      simpa using ih h
    · cases h

theorem popRegs_error {is : List Reg} {s : State} {f : FaultName}
    (h : popRegs is s = .error f) : f = .stackUnderflow := by
  induction is generalizing s with
  | nil => cases h
  | cons i is ih =>
    unfold popRegs at h
    split at h
    · exact ih h
    · rename_i g hg; cases h; exact (popReg_error.mp hg).2

/-! ### Interrupt entry and return -/

theorem interruptEntry_ok {n ret : Byte} {s t : State} (h : interruptEntry n ret s = .ok t) :
    ∃ u v, pushAll (interruptFrame ret) s = .ok u ∧ u.readVector n = some v ∧ t = u.jump v := by
  unfold interruptEntry at h
  split at h
  · cases h
  · rename_i u hu
    split at h
    · cases h
    · rename_i v hv; cases h; exact ⟨u, v, hu, hv, rfl⟩

theorem interruptEntry_error {n ret : Byte} {s : State} {f : FaultName}
    (h : interruptEntry n ret s = .error f) :
    f = .stackOverflow ∨
      (f = .programCounterOutOfBounds ∧ 255 < s.cfg.intVectorBase.toNat + n.toNat) := by
  unfold interruptEntry at h
  split at h
  · rename_i g hg; cases h; exact .inl (pushAll_error hg)
  · rename_i u hu
    split at h
    · rename_i hv
      cases h
      refine .inr ⟨rfl, ?_⟩
      simp only [State.readVector, (pushAll_ok hu).1] at hv
      split at hv
      · cases hv
      · omega
    · cases h

theorem interruptReturn_ok {s t : State} (h : interruptReturn s = .ok t) :
    ∃ u p q, popRegs [.r7, .r6, .r5, .r4, .r3, .r2, .r1, .r0] s = .ok u ∧ pop8 u = .ok p ∧
      pop8 p.2 = .ok q ∧ t = (q.2.setFlags (Flags.ofByte q.1)).jump p.1 := by
  unfold interruptReturn at h
  split at h
  · cases h
  · rename_i u hu
    split at h
    · cases h
    · rename_i v t' hp
      split at h
      · cases h
      · rename_i w t'' hq
        cases h
        exact ⟨u, (v, t'), (w, t''), hu, hp, hq, rfl⟩

theorem interruptReturn_error {s : State} {f : FaultName} (h : interruptReturn s = .error f) :
    f = .stackUnderflow := by
  unfold interruptReturn at h
  split at h
  · rename_i g hg; cases h; exact popRegs_error hg
  · split at h
    · rename_i g hg; cases h; exact (pop8_error.mp hg).2
    · split at h
      · rename_i g hg; cases h; exact (pop8_error.mp hg).2
      · cases h

/-! ### Operands, commit, fault entry, return address -/

@[simp] theorem withReg_toByte (m : Mnemonic) (r : Reg) (s : State) (k) :
    withReg m r.toByte s k = k r := by
  simp [withReg, Reg.ofByte?_toByte]

@[simp] theorem withRegs_toByte (m : Mnemonic) (ra rb : Reg) (s : State) (k) :
    withRegs m ra.toByte rb.toByte s k = k ra rb := by
  simp [withRegs]

/-- One register operand: the byte names a register and `k` runs, or the fault is taken. -/
theorem withReg_cases (m : Mnemonic) (a : Byte) (s : State) (k) :
    (∃ r : Reg, a = r.toByte ∧ withReg m a s k = k r) ∨
      (7 < a.toNat ∧ withReg m a s k = raiseIn m .invalidRegisterIndex s) := by
  unfold withReg
  cases h : Reg.ofByte? a with
  | some r => exact .inl ⟨r, Reg.ofByte?_eq_some.mp h, rfl⟩
  | none => exact .inr ⟨Reg.ofByte?_eq_none.mp h, rfl⟩

/-- Two register operands: both bytes name registers and `k` runs, or the fault is taken. -/
theorem withRegs_cases (m : Mnemonic) (a b : Byte) (s : State) (k) :
    (∃ ra rb : Reg, a = ra.toByte ∧ b = rb.toByte ∧ withRegs m a b s k = k ra rb) ∨
      ((7 < a.toNat ∨ 7 < b.toNat) ∧ withRegs m a b s k = raiseIn m .invalidRegisterIndex s) := by
  unfold withRegs
  rcases withReg_cases m a s (fun ra => withReg m b s fun rb => k ra rb) with ⟨ra, ha, h⟩ | ⟨ha, h⟩
  · rcases withReg_cases m b s (k ra) with ⟨rb, hb, h'⟩ | ⟨hb, h'⟩
    · exact .inl ⟨ra, rb, ha, hb, h.trans h'⟩
    · exact .inr ⟨.inr hb, h.trans h'⟩
  · exact .inr ⟨.inl ha, h⟩

/-- A commit is a next state either way. -/
theorem commit_next {m : Mnemonic} {s t : State} {r : Except FaultName State} :
    commit m s r = .next t ↔
      r = .ok t ∨ ∃ f, r = .error f ∧ t = s.raise f (some m.opcode) := by
  cases r <;> simp [commit, raiseIn, eq_comm]

theorem raiseIn_next {m : Mnemonic} {f : FaultName} {s t : State} :
    raiseIn m f s = .next t ↔ t = s.raise f (some m.opcode) := by
  simp [raiseIn, eq_comm]

/-- The return address: it fits in a byte and `k` runs, or the fault is taken. -/
theorem withReturnAddress_cases (m : Mnemonic) (s : State) (k) :
    (s.pc.toNat + 2 ≤ 255 ∧
      withReturnAddress m s k = k (BitVec.ofNat 8 (s.pc.toNat + 2))) ∨
    (255 < s.pc.toNat + 2 ∧
      withReturnAddress m s k = raiseIn m .programCounterOutOfBounds s) := by
  unfold withReturnAddress
  split
  · exact .inr ⟨by omega, rfl⟩
  · exact .inl ⟨by omega, rfl⟩

end Sys2Proof.Machine
end

