-- ==== Sys2Proof/Laws/Exec.lean ====
section
/-! SUPPORT. What an instruction can do, said once per shape and once for all instructions. -/

namespace Sys2Proof.Machine

/-- What every instruction that completes keeps, whatever it computes. -/
structure Completed (i : Instr) (s t : State) : Prop where
  cfg : t.cfg = s.cfg
  loaded : t.loaded = s.loaded
  imgStart : t.imgStart = s.imgStart
  imgEnd : t.imgEnd = s.imgEnd
  err : t.err = s.err
  mem_wf : s.mem.wf → t.mem.wf
  out : t.out = s.out ∨ ∃ ev, t.out = s.out ++ [ev]
  status : t.status = s.status ∨ (i = .hlt ∧ t.status = .halted .ok)
  pc : t.pc = s.seq i.operands.length ∨ (∃ v : Byte, t.pc = v.zeroExtend 9) ∨ (i = .hlt ∧ t.pc = s.pc)

/-- The two things an outcome of `exec` can be: a fault taken from `s`, or a completed instruction. -/
def FaultOrCompleted (i : Instr) (s : State) (o : Host.Outcome State Fault Refusal) : Prop :=
  (∃ f, f ≠ .unsupportedAluOperation ∧ f ≠ .unknownOpcode ∧ o = raiseIn i.mnemonic f s) ∨
    ∃ t, o = .next t ∧ Completed i s t

theorem FaultOrCompleted.raise {i : Instr} {s : State} (f : FaultName)
    (h : f ≠ .unsupportedAluOperation := by decide) (h' : f ≠ .unknownOpcode := by decide) :
    FaultOrCompleted i s (raiseIn i.mnemonic f s) := .inl ⟨f, h, h', rfl⟩

theorem FaultOrCompleted.done {i : Instr} {s t : State} (h : Completed i s t) :
    FaultOrCompleted i s (.next t) := .inr ⟨t, rfl, h⟩

theorem FaultOrCompleted.withReg {i : Instr} {s : State} {a : Byte} {k}
    (h : ∀ r, FaultOrCompleted i s (k r)) : FaultOrCompleted i s (withReg i.mnemonic a s k) := by
  rcases withReg_cases i.mnemonic a s k with ⟨r, -, e⟩ | ⟨-, e⟩ <;> rw [e]
  · exact h r
  · exact .raise _

theorem FaultOrCompleted.withRegs {i : Instr} {s : State} {a b : Byte} {k}
    (h : ∀ ra rb, FaultOrCompleted i s (k ra rb)) :
    FaultOrCompleted i s (withRegs i.mnemonic a b s k) := by
  rcases withRegs_cases i.mnemonic a b s k with ⟨ra, rb, -, -, e⟩ | ⟨-, e⟩ <;> rw [e]
  · exact h ra rb
  · exact .raise _

theorem FaultOrCompleted.withReturnAddress {i : Instr} {s : State} {k}
    (h : ∀ ret, FaultOrCompleted i s (k ret)) :
    FaultOrCompleted i s (withReturnAddress i.mnemonic s k) := by
  rcases withReturnAddress_cases i.mnemonic s k with ⟨-, e⟩ | ⟨-, e⟩ <;> rw [e]
  · exact h _
  · exact .raise _

theorem FaultOrCompleted.commit {i : Instr} {s : State} {r : Except FaultName State}
    (hf : ∀ f, r = .error f → f ≠ .unsupportedAluOperation ∧ f ≠ .unknownOpcode)
    (h : ∀ t, r = .ok t → Completed i s t) : FaultOrCompleted i s (commit i.mnemonic s r) := by
  cases r with
  | ok t => exact .done (h t rfl)
  | error f => exact .inl ⟨f, (hf f rfl).1, (hf f rfl).2, rfl⟩

theorem aluBinary_faultOrCompleted (i : Instr) (hn : i.operands.length = 2) (f) (a b : Byte)
    (s : State) : FaultOrCompleted i s (aluBinary i.mnemonic f a b s) :=
  .withRegs fun _ _ => .done ⟨rfl, rfl, rfl, rfl, rfl, id, .inl rfl, .inl rfl, .inl (by rw [hn]; rfl)⟩

theorem aluDivide_faultOrCompleted (i : Instr) (hn : i.operands.length = 2) (f) (a b : Byte)
    (s : State) : FaultOrCompleted i s (aluDivide i.mnemonic f a b s) :=
  .withRegs fun _ _ => by
    split
    · exact .raise _
    · exact .done ⟨rfl, rfl, rfl, rfl, rfl, id, .inl rfl, .inl rfl, .inl (by rw [hn]; rfl)⟩

theorem aluUnary_faultOrCompleted (i : Instr) (hn : i.operands.length = 1) (f) (a : Byte)
    (s : State) : FaultOrCompleted i s (aluUnary i.mnemonic f a s) :=
  .withReg fun _ => .done ⟨rfl, rfl, rfl, rfl, rfl, id, .inl rfl, .inl rfl, .inl (by rw [hn]; rfl)⟩

theorem jumpIf_faultOrCompleted (i : Instr) (hn : i.operands.length = 1) (c) (a : Byte)
    (s : State) : FaultOrCompleted i s (jumpIf i.mnemonic c a s) :=
  .withReg fun _ => .done (by
    split
    · exact ⟨rfl, rfl, rfl, rfl, rfl, id, .inl rfl, .inl rfl, .inr (.inl ⟨_, rfl⟩)⟩
    · exact ⟨rfl, rfl, rfl, rfl, rfl, id, .inl rfl, .inl rfl, .inl (by rw [hn]; rfl)⟩)

theorem execPush_faultOrCompleted (a : Byte) (s : State) :
    FaultOrCompleted (.push a) s (execPush a s) :=
  .withReg (i := .push a) fun _ => .commit
    (fun f h => by
      rw [push8_eq] at h; split at h <;> cases h; decide)
    (fun t h => by
      rw [push8_eq] at h; split at h <;> cases h
      exact ⟨rfl, rfl, rfl, rfl, rfl, fun hw => Memory.write_wf hw _ _, .inl rfl, .inl rfl, .inl rfl⟩)

theorem execPop_faultOrCompleted (a : Byte) (s : State) :
    FaultOrCompleted (.pop a) s (execPop a s) :=
  .withReg (i := .pop a) fun _ => .commit
    (fun f h => by
      rw [popReg_eq] at h; split at h <;> cases h; decide)
    (fun t h => by
      rw [popReg_eq] at h; split at h <;> cases h
      exact ⟨by simp, by simp, by simp, by simp, by simp, by simp, .inl (by simp), .inl (by simp),
        .inl (by simp [State.seq, Instr.operands])⟩)

theorem execCall_faultOrCompleted (a : Byte) (s : State) :
    FaultOrCompleted (.call a) s (execCall a s) :=
  .withReg (i := .call a) fun _ => .withReturnAddress (i := .call a) fun _ => .commit
    (fun f h => by
      rw [push8_eq] at h; split at h <;> cases h; decide)
    (fun t h => by
      rw [push8_eq] at h; split at h <;> cases h
      exact ⟨rfl, rfl, rfl, rfl, rfl, fun hw => Memory.write_wf hw _ _, .inl rfl, .inl rfl,
        .inr (.inl ⟨_, rfl⟩)⟩)

theorem execRet_faultOrCompleted (s : State) : FaultOrCompleted .ret s (execRet s) :=
  .commit (i := .ret)
    (fun f h => by
      rw [pop8_eq] at h; split at h <;> cases h; decide)
    (fun t h => by
      rw [pop8_eq] at h; split at h <;> cases h
      exact ⟨rfl, rfl, rfl, rfl, rfl, id, .inl rfl, .inl rfl, .inr (.inl ⟨_, rfl⟩)⟩)

theorem execInt_faultOrCompleted (a : Byte) (s : State) :
    FaultOrCompleted (.int a) s (execInt a s) :=
  .withReg (i := .int a) fun _ => by
    split
    · exact .raise (i := .int a) _
    · refine .withReturnAddress (i := .int a) fun _ => .commit
        (fun f h => ?_) (fun t h => ?_)
      · rcases interruptEntry_error h with rfl | ⟨rfl, -⟩ <;> decide
      · obtain ⟨u, v, hu, -, rfl⟩ := interruptEntry_ok h
        obtain ⟨h1, h2, h3, h4, h5, h6, h7, h8, h9, h10, -⟩ := pushAll_ok hu
        exact ⟨h1, h10, h5, h6, h7, h9, .inl h8, .inl h4, .inr (.inl ⟨_, rfl⟩)⟩

theorem execIret_faultOrCompleted (s : State) : FaultOrCompleted .iret s (execIret s) :=
  .commit (i := .iret)
    (fun f h => by rw [interruptReturn_error h]; decide)
    (fun t h => by
      obtain ⟨u, p, q, hu, hp, hq, rfl⟩ := interruptReturn_ok h
      obtain ⟨h1, h2, h3, h4, h5, h6, h7, h8, h9, h10⟩ := popRegs_ok hu
      obtain ⟨-, rfl⟩ := pop8_ok.mp hp
      obtain ⟨-, rfl⟩ := pop8_ok.mp hq
      exact ⟨h1, h10, h5, h6, h8, fun hw => (congrArg Memory.wf h7).mpr hw, .inl h9, .inl h4,
        .inr (.inl ⟨_, rfl⟩)⟩)

/-- Every instruction at every state either takes a fault from that state or completes. -/
theorem exec_faultOrCompleted (i : Instr) (s : State) : FaultOrCompleted i s (exec i s) := by
  cases i with
  | nop => exact .done ⟨rfl, rfl, rfl, rfl, rfl, id, .inl rfl, .inl rfl, .inl rfl⟩
  | hlt => exact .done ⟨rfl, rfl, rfl, rfl, rfl, id, .inl rfl, .inr ⟨rfl, rfl⟩, .inr (.inr ⟨rfl, rfl⟩)⟩
  | ret => exact execRet_faultOrCompleted s
  | iret => exact execIret_faultOrCompleted s
  | push a => exact execPush_faultOrCompleted a s
  | pop a => exact execPop_faultOrCompleted a s
  | prn a =>
    exact .withReg (i := .prn a) fun _ =>
      .done ⟨rfl, rfl, rfl, rfl, rfl, id, .inr ⟨_, rfl⟩, .inl rfl, .inl rfl⟩
  | pra a =>
    exact .withReg (i := .pra a) fun _ =>
      .done ⟨rfl, rfl, rfl, rfl, rfl, id, .inr ⟨_, rfl⟩, .inl rfl, .inl rfl⟩
  | call a => exact execCall_faultOrCompleted a s
  | int a => exact execInt_faultOrCompleted a s
  | jmp a =>
    exact .withReg (i := .jmp a) fun _ =>
      .done ⟨rfl, rfl, rfl, rfl, rfl, id, .inl rfl, .inl rfl, .inr (.inl ⟨_, rfl⟩)⟩
  | jeq a => exact jumpIf_faultOrCompleted (.jeq a) rfl _ a s
  | jne a => exact jumpIf_faultOrCompleted (.jne a) rfl _ a s
  | jgt a => exact jumpIf_faultOrCompleted (.jgt a) rfl _ a s
  | jlt a => exact jumpIf_faultOrCompleted (.jlt a) rfl _ a s
  | jle a => exact jumpIf_faultOrCompleted (.jle a) rfl _ a s
  | jge a => exact jumpIf_faultOrCompleted (.jge a) rfl _ a s
  | inc a => exact aluUnary_faultOrCompleted (.inc a) rfl _ a s
  | dec a => exact aluUnary_faultOrCompleted (.dec a) rfl _ a s
  | not a => exact aluUnary_faultOrCompleted (.not a) rfl _ a s
  | ldi a imm =>
    exact .withReg (i := .ldi a imm) fun _ =>
      .done ⟨rfl, rfl, rfl, rfl, rfl, id, .inl rfl, .inl rfl, .inl rfl⟩
  | ld a b =>
    exact .withRegs (i := .ld a b) fun _ _ =>
      .done ⟨rfl, rfl, rfl, rfl, rfl, id, .inl rfl, .inl rfl, .inl rfl⟩
  | st a b =>
    exact .withRegs (i := .st a b) fun _ _ =>
      .done ⟨rfl, rfl, rfl, rfl, rfl, fun h => Memory.write_wf h _ _, .inl rfl, .inl rfl, .inl rfl⟩
  | add a b => exact aluBinary_faultOrCompleted (.add a b) rfl _ a b s
  | sub a b => exact aluBinary_faultOrCompleted (.sub a b) rfl _ a b s
  | mul a b => exact aluBinary_faultOrCompleted (.mul a b) rfl _ a b s
  | div a b => exact aluDivide_faultOrCompleted (.div a b) rfl _ a b s
  | mod a b => exact aluDivide_faultOrCompleted (.mod a b) rfl _ a b s
  | cmp a b =>
    exact .withRegs (i := .cmp a b) fun _ _ =>
      .done ⟨rfl, rfl, rfl, rfl, rfl, id, .inl rfl, .inl rfl, .inl rfl⟩
  | and a b => exact aluBinary_faultOrCompleted (.and a b) rfl _ a b s
  | or a b => exact aluBinary_faultOrCompleted (.or a b) rfl _ a b s
  | xor a b => exact aluBinary_faultOrCompleted (.xor a b) rfl _ a b s
  | shl a b => exact aluBinary_faultOrCompleted (.shl a b) rfl _ a b s
  | shr a b => exact aluBinary_faultOrCompleted (.shr a b) rfl _ a b s

end Sys2Proof.Machine
end

