-- ==== Sys2Proof/Laws/Step.lean ====
section
/-! SUPPORT. Fetch and step: what they can do, said once. -/

namespace Sys2Proof.Machine

theorem State.fetch_some {s : State} {addr : Nat} {v : Byte} (h : s.fetch addr = some v) :
    addr ≤ 255 ∧ v = s.readMem (BitVec.ofNat 8 addr) := by
  unfold State.fetch at h
  split at h
  · cases h
  · split at h
    · cases h
    · cases h; exact ⟨by omega, rfl⟩

theorem State.fetch_none_of_gt {s : State} {addr : Nat} (h : 255 < addr) : s.fetch addr = none := by
  simp [State.fetch, h]

/-- A run of bytes is fetched exactly if each of them is. -/
theorem State.fetchBytes_some {s : State} {n addr : Nat} {vs : List Byte}
    (h : s.fetchBytes addr n = some vs) :
    vs.length = n ∧ ∀ k (hk : k < vs.length), s.fetch (addr + k) = some vs[k] := by
  induction n generalizing addr vs with
  | zero => cases h; simp
  | succ n ih =>
    unfold State.fetchBytes at h
    split at h
    · rename_i v ws hv hw
      cases h
      obtain ⟨hl, hk⟩ := ih hw
      refine ⟨by simp [hl], fun k hk' => ?_⟩
      cases k with
      | zero => simpa using hv
      | succ k =>
        have := hk k (by simpa using hk')
        simpa [Nat.add_assoc, Nat.add_comm 1 k] using this
    · cases h

theorem State.fetchBytes_none {s : State} {n addr : Nat} (h : s.fetchBytes addr n = none) :
    ∃ k, k < n ∧ s.fetch (addr + k) = none := by
  induction n generalizing addr with
  | zero => cases h
  | succ n ih =>
    unfold State.fetchBytes at h
    cases hv : s.fetch addr with
    | none => exact ⟨0, by omega, hv⟩
    | some v =>
      cases hw : s.fetchBytes (addr + 1) n with
      | none =>
        obtain ⟨k, hk, h⟩ := ih hw
        exact ⟨k + 1, by omega, by simpa [Nat.add_assoc, Nat.add_comm 1 k] using h⟩
      | some ws => simp [hv, hw] at h

/-- What the fetch of an instruction can answer when it answers one. -/
theorem State.fetchInstr_ok {s : State} {i : Instr} (h : s.fetchInstr = .ok i) :
    s.fetch s.pc.toNat = some i.mnemonic.opcode ∧
      s.fetchBytes (s.pc.toNat + 1) i.operands.length = some i.operands ∧
      s.pc.toNat + i.operands.length ≤ 255 := by
  unfold State.fetchInstr at h
  split at h
  · cases h
  · rename_i op hop
    split at h
    · cases h
    · rename_i row hrow
      split at h
      · cases h
      · rename_i vs hvs
        cases h
        obtain ⟨hmem, hopc⟩ := lookupOpcode_mem hrow
        obtain ⟨hm, hle, -⟩ := opcodeTable_row row hmem
        obtain ⟨hlen, hk⟩ := State.fetchBytes_some hvs
        have hops : (row.mnemonic.instr (vs.getD 0 0) (vs.getD 1 0)).operands = vs := by
          rw [operands_instr hmem, ← hlen]
          rw [← hlen] at hle
          match vs, hle with
          | [], _ => rfl
          | [_], _ => rfl
          | [_, _], _ => rfl
        rw [hops, hlen, Mnemonic.instr_mnemonic, hm, hopc]
        refine ⟨hop, hvs, ?_⟩
        by_cases h0 : row.operandCount = 0
        · have := (State.fetch_some hop).1; omega
        · have := (State.fetch_some (hk (row.operandCount - 1) (by omega))).1; omega

/-- What the fetch of an instruction can answer when it fails: one of the three checks of R230. -/
theorem State.fetchInstr_error {s : State} {f : FaultName} {byte : Option Byte}
    (h : s.fetchInstr = .error (f, byte)) : byte = s.fetch s.pc.toNat ∧
      ((f = .programCounterOutOfBounds ∧ byte = none) ∨
       (f = .unknownOpcode ∧ ∃ op, byte = some op ∧ lookupOpcode op = none) ∨
       (f = .programCounterOutOfBounds ∧ ∃ op row, byte = some op ∧ lookupOpcode op = some row ∧
          s.fetchBytes (s.pc.toNat + 1) row.operandCount = none)) := by
  unfold State.fetchInstr at h
  split at h
  · rename_i hop; cases h; exact ⟨hop.symm, .inl ⟨rfl, rfl⟩⟩
  · rename_i op hop
    split at h
    · rename_i hl; cases h; exact ⟨hop.symm, .inr (.inl ⟨rfl, op, rfl, hl⟩)⟩
    · rename_i row hrow
      split at h
      · rename_i hvs; cases h; exact ⟨hop.symm, .inr (.inr ⟨rfl, op, row, rfl, hrow, hvs⟩)⟩
      · cases h

/-- A step to a next state: the core was Running, and it took a fetch or decode fault or ran the
instruction fetched. -/
theorem step_next {s t : State} (h : step s = .next t) : s.status = .running ∧
    ((∃ f byte, s.fetchInstr = .error (f, byte) ∧ t = s.raise f byte) ∨
      ∃ i, s.fetchInstr = .ok i ∧ exec i s = .next t) := by
  unfold step at h
  split at h
  · cases h
  · rename_i hr
    refine ⟨hr, ?_⟩
    split at h
    · rename_i f byte he; cases h; exact .inl ⟨f, byte, he, rfl⟩
    · rename_i i hi; exact .inr ⟨i, hi, h⟩

/-- A step of a Running core: a fault taken with the byte fetched at the pc, or a completed
instruction. -/
theorem step_cases {s t : State} (h : step s = .next t) : s.status = .running ∧
    ((∃ f, f ≠ .unsupportedAluOperation ∧ t = s.raise f (s.fetch s.pc.toNat)) ∨
      ∃ i, s.fetchInstr = .ok i ∧ exec i s = .next t ∧ Completed i s t) := by
  obtain ⟨hr, ⟨f, byte, he, rfl⟩ | ⟨i, hi, hx⟩⟩ := step_next h
  · obtain ⟨rfl, hf⟩ := State.fetchInstr_error he
    refine ⟨hr, .inl ⟨f, ?_, rfl⟩⟩
    rcases hf with ⟨rfl, -⟩ | ⟨rfl, -⟩ | ⟨rfl, -⟩ <;> decide
  · refine ⟨hr, ?_⟩
    obtain ⟨hop, -, -⟩ := State.fetchInstr_ok hi
    rcases exec_faultOrCompleted i s with ⟨f, hf, -, he⟩ | ⟨u, hu, hc⟩
    · rw [he, raiseIn_next] at hx
      exact .inl ⟨f, hf, by rw [hop]; exact hx⟩
    · rw [hu] at hx
      cases hx
      exact .inr ⟨i, hi, hu, hc⟩

end Sys2Proof.Machine
end

