-- ==== Sys2Proof/Laws/Inversion.lean ====
section
/-! SUPPORT. From `exec … = .next t` to what `t` is: one inversion lemma per shape of instruction. -/

namespace Sys2Proof.Machine

/-- A fault raised by an instruction's meaning is a fault in the sense of claims. -/
theorem raiseIn_faults (m : Mnemonic) (f : FaultName) (s : State) :
    FaultsWith f (some m.opcode) s (raiseIn m f s) := ⟨_, rfl, rfl, rfl⟩

/-- A register operand: the register it names, or InvalidRegisterIndex. -/
theorem withReg_next {m a s k t} (h : withReg m a s k = .next t) :
    (∃ r : Reg, a = r.toByte ∧ k r = .next t) ∨
      t = s.raise .invalidRegisterIndex (some m.opcode) := by
  rcases withReg_cases m a s k with ⟨r, h1, h2⟩ | ⟨-, h2⟩
  · exact .inl ⟨r, h1, h2 ▸ h⟩
  · rw [h2, raiseIn_next] at h; exact .inr h

theorem withRegs_next {m a b s k t} (h : withRegs m a b s k = .next t) :
    (∃ ra rb : Reg, a = ra.toByte ∧ b = rb.toByte ∧ k ra rb = .next t) ∨
      t = s.raise .invalidRegisterIndex (some m.opcode) := by
  rcases withRegs_cases m a b s k with ⟨r, q, h1, h3, h2⟩ | ⟨-, h2⟩
  · exact .inl ⟨r, q, h1, h3, h2 ▸ h⟩
  · rw [h2, raiseIn_next] at h; exact .inr h

theorem aluBinary_next {m f a b s t} (h : aluBinary m f a b s = .next t) :
    (∃ (ra : Reg) (v : Byte), a = ra.toByte ∧ t = (s.writeReg ra v).advance 2) ∨
      ∃ f, t = s.raise f (some m.opcode) := by
  rcases withRegs_next h with ⟨ra, rb, ha, hb, hk⟩ | h
  · cases hk; exact .inl ⟨ra, _, ha, rfl⟩
  · exact .inr ⟨_, h⟩

theorem aluDivide_next {m f a b s t} (h : aluDivide m f a b s = .next t) :
    (∃ (ra : Reg) (v : Byte), a = ra.toByte ∧ t = (s.writeReg ra v).advance 2) ∨
      ∃ f, t = s.raise f (some m.opcode) := by
  rcases withRegs_next h with ⟨ra, rb, ha, hb, hk⟩ | h
  · split at hk
    · rw [raiseIn_next] at hk; exact .inr ⟨_, hk⟩
    · cases hk; exact .inl ⟨ra, _, ha, rfl⟩
  · exact .inr ⟨_, h⟩

theorem aluUnary_next {m f a s t} (h : aluUnary m f a s = .next t) :
    (∃ (ra : Reg) (v : Byte), a = ra.toByte ∧ t = (s.writeReg ra v).advance 1) ∨
      ∃ f, t = s.raise f (some m.opcode) := by
  rcases withReg_next h with ⟨ra, ha, hk⟩ | h
  · cases hk; exact .inl ⟨ra, _, ha, rfl⟩
  · exact .inr ⟨_, h⟩

theorem jumpIf_next {m c a s t} (h : jumpIf m c a s = .next t) :
    (∃ p, t = s.setPc p) ∨
      ∃ f, t = s.raise f (some m.opcode) := by
  rcases withReg_next h with ⟨ra, ha, hk⟩ | h
  · cases hk; left; split <;> exact ⟨_, rfl⟩
  · exact .inr ⟨_, h⟩

theorem execPush_next {a s t} (h : execPush a s = .next t) :
    (∃ e, t = (s.pushed e).advance 1) ∨
      ∃ f, t = s.raise f (some Mnemonic.push.opcode) := by
  rcases withReg_next h with ⟨ra, ha, hk⟩ | h
  · rw [commit_next] at hk
    rcases hk with hk | ⟨f, -, rfl⟩
    · rw [push8_eq] at hk; split at hk <;> cases hk; exact .inl ⟨_, rfl⟩
    · exact .inr ⟨_, rfl⟩
  · exact .inr ⟨_, h⟩

theorem execPop_next {a s t} (h : execPop a s = .next t) :
    (∃ r : Reg, a = r.toByte ∧ t = (s.popped r).advance 1) ∨
      ∃ f, t = s.raise f (some Mnemonic.pop.opcode) := by
  rcases withReg_next h with ⟨ra, ha, hk⟩ | h
  · rw [commit_next] at hk
    rcases hk with hk | ⟨f, -, rfl⟩
    · rw [popReg_eq] at hk; split at hk <;> cases hk; exact .inl ⟨ra, ha, rfl⟩
    · exact .inr ⟨_, rfl⟩
  · exact .inr ⟨_, h⟩

theorem execCall_next {a s t} (h : execCall a s = .next t) :
    (∃ e v, t = (s.pushed e).jump v) ∨
      ∃ f, t = s.raise f (some Mnemonic.call.opcode) := by
  rcases withReg_next h with ⟨ra, ha, hk⟩ | h
  · unfold withReturnAddress at hk
    split at hk
    · rw [raiseIn_next] at hk; exact .inr ⟨_, hk⟩
    · rw [commit_next] at hk
      rcases hk with hk | ⟨f, -, rfl⟩
      · rw [push8_eq] at hk; split at hk <;> cases hk; exact .inl ⟨_, _, rfl⟩
      · exact .inr ⟨_, rfl⟩
  · exact .inr ⟨_, h⟩

theorem execRet_next {s t} (h : execRet s = .next t) :
    (∃ v w, t = (s.writeReg .r7 v).jump w) ∨
      ∃ f, t = s.raise f (some Mnemonic.ret.opcode) := by
  unfold execRet at h
  rw [commit_next] at h
  rcases h with hk | ⟨f, -, rfl⟩
  · rw [pop8_eq] at hk; split at hk <;> cases hk; exact .inl ⟨_, _, rfl⟩
  · exact .inr ⟨_, rfl⟩

theorem execInt_next {a s t} (h : execInt a s = .next t) :
    (∃ u v es, pushAll es s = .ok u ∧ t = u.jump v) ∨
      ∃ f, t = s.raise f (some Mnemonic.int.opcode) := by
  rcases withReg_next h with ⟨ra, ha, hk⟩ | h
  · split at hk
    · rw [raiseIn_next] at hk; exact .inr ⟨_, hk⟩
    · unfold withReturnAddress at hk
      split at hk
      · rw [raiseIn_next] at hk; exact .inr ⟨_, hk⟩
      · rw [commit_next] at hk
        rcases hk with hk | ⟨f, -, rfl⟩
        · obtain ⟨u, v, h1, h2, rfl⟩ := interruptEntry_ok hk
          exact .inl ⟨u, v, _, h1, rfl⟩
        · exact .inr ⟨_, rfl⟩
  · exact .inr ⟨_, h⟩

theorem execIret_next {s t} (h : execIret s = .next t) :
    (t.mem = s.mem ∧ t.status = s.status) ∨
      ∃ f, t = s.raise f (some Mnemonic.iret.opcode) := by
  unfold execIret at h
  rw [commit_next] at h
  rcases h with hk | ⟨f, -, rfl⟩
  · obtain ⟨x, y, z, h1, h2, h3, rfl⟩ := interruptReturn_ok hk
    obtain ⟨-, rfl⟩ := pop8_ok.mp h2
    obtain ⟨-, rfl⟩ := pop8_ok.mp h3
    have := popRegs_ok h1
    exact .inl ⟨this.2.2.2.2.2.2.1, this.2.2.2.1⟩
  · exact .inr ⟨_, rfl⟩

end Sys2Proof.Machine
end

