-- ==== Sys2Proof/Laws/PerInstr.lean ====
section
/-! SUPPORT. Statements made per instruction. Encoding: the bytes of an instruction decode to it, with
whatever follows them left over. -/

/-- Decoding the bytes of `i` and any bytes after them gives `i` and those bytes. -/
def Sys2Proof.Laws.Encoding.Statement (i : Sys2Proof.Instr) : Prop :=
  ∀ rest : List Sys2Proof.Byte, Sys2Proof.decode (Sys2Proof.encode i ++ rest) = .ok (i, rest)

open Sys2Proof

theorem Sys2Proof.Laws.Encoding.nop :
    Sys2Proof.Laws.Encoding.Statement (.nop) := fun _ => rfl

theorem Sys2Proof.Laws.Encoding.hlt :
    Sys2Proof.Laws.Encoding.Statement (.hlt) := fun _ => rfl

theorem Sys2Proof.Laws.Encoding.ret :
    Sys2Proof.Laws.Encoding.Statement (.ret) := fun _ => rfl

theorem Sys2Proof.Laws.Encoding.iret :
    Sys2Proof.Laws.Encoding.Statement (.iret) := fun _ => rfl

theorem Sys2Proof.Laws.Encoding.push (a : Byte) :
    Sys2Proof.Laws.Encoding.Statement (.push a) := fun _ => rfl

theorem Sys2Proof.Laws.Encoding.pop (a : Byte) :
    Sys2Proof.Laws.Encoding.Statement (.pop a) := fun _ => rfl

theorem Sys2Proof.Laws.Encoding.prn (a : Byte) :
    Sys2Proof.Laws.Encoding.Statement (.prn a) := fun _ => rfl

theorem Sys2Proof.Laws.Encoding.pra (a : Byte) :
    Sys2Proof.Laws.Encoding.Statement (.pra a) := fun _ => rfl

theorem Sys2Proof.Laws.Encoding.call (a : Byte) :
    Sys2Proof.Laws.Encoding.Statement (.call a) := fun _ => rfl

theorem Sys2Proof.Laws.Encoding.int (a : Byte) :
    Sys2Proof.Laws.Encoding.Statement (.int a) := fun _ => rfl

theorem Sys2Proof.Laws.Encoding.jmp (a : Byte) :
    Sys2Proof.Laws.Encoding.Statement (.jmp a) := fun _ => rfl

theorem Sys2Proof.Laws.Encoding.jeq (a : Byte) :
    Sys2Proof.Laws.Encoding.Statement (.jeq a) := fun _ => rfl

theorem Sys2Proof.Laws.Encoding.jne (a : Byte) :
    Sys2Proof.Laws.Encoding.Statement (.jne a) := fun _ => rfl

theorem Sys2Proof.Laws.Encoding.jgt (a : Byte) :
    Sys2Proof.Laws.Encoding.Statement (.jgt a) := fun _ => rfl

theorem Sys2Proof.Laws.Encoding.jlt (a : Byte) :
    Sys2Proof.Laws.Encoding.Statement (.jlt a) := fun _ => rfl

theorem Sys2Proof.Laws.Encoding.jle (a : Byte) :
    Sys2Proof.Laws.Encoding.Statement (.jle a) := fun _ => rfl

theorem Sys2Proof.Laws.Encoding.jge (a : Byte) :
    Sys2Proof.Laws.Encoding.Statement (.jge a) := fun _ => rfl

theorem Sys2Proof.Laws.Encoding.inc (a : Byte) :
    Sys2Proof.Laws.Encoding.Statement (.inc a) := fun _ => rfl

theorem Sys2Proof.Laws.Encoding.dec (a : Byte) :
    Sys2Proof.Laws.Encoding.Statement (.dec a) := fun _ => rfl

theorem Sys2Proof.Laws.Encoding.not (a : Byte) :
    Sys2Proof.Laws.Encoding.Statement (.not a) := fun _ => rfl

theorem Sys2Proof.Laws.Encoding.ldi (a imm : Byte) :
    Sys2Proof.Laws.Encoding.Statement (.ldi a imm) := fun _ => rfl

theorem Sys2Proof.Laws.Encoding.ld (a b : Byte) :
    Sys2Proof.Laws.Encoding.Statement (.ld a b) := fun _ => rfl

theorem Sys2Proof.Laws.Encoding.st (a b : Byte) :
    Sys2Proof.Laws.Encoding.Statement (.st a b) := fun _ => rfl

theorem Sys2Proof.Laws.Encoding.add (a b : Byte) :
    Sys2Proof.Laws.Encoding.Statement (.add a b) := fun _ => rfl

theorem Sys2Proof.Laws.Encoding.sub (a b : Byte) :
    Sys2Proof.Laws.Encoding.Statement (.sub a b) := fun _ => rfl

theorem Sys2Proof.Laws.Encoding.mul (a b : Byte) :
    Sys2Proof.Laws.Encoding.Statement (.mul a b) := fun _ => rfl

theorem Sys2Proof.Laws.Encoding.div (a b : Byte) :
    Sys2Proof.Laws.Encoding.Statement (.div a b) := fun _ => rfl

theorem Sys2Proof.Laws.Encoding.mod (a b : Byte) :
    Sys2Proof.Laws.Encoding.Statement (.mod a b) := fun _ => rfl

theorem Sys2Proof.Laws.Encoding.cmp (a b : Byte) :
    Sys2Proof.Laws.Encoding.Statement (.cmp a b) := fun _ => rfl

theorem Sys2Proof.Laws.Encoding.and (a b : Byte) :
    Sys2Proof.Laws.Encoding.Statement (.and a b) := fun _ => rfl

theorem Sys2Proof.Laws.Encoding.or (a b : Byte) :
    Sys2Proof.Laws.Encoding.Statement (.or a b) := fun _ => rfl

theorem Sys2Proof.Laws.Encoding.xor (a b : Byte) :
    Sys2Proof.Laws.Encoding.Statement (.xor a b) := fun _ => rfl

theorem Sys2Proof.Laws.Encoding.shl (a b : Byte) :
    Sys2Proof.Laws.Encoding.Statement (.shl a b) := fun _ => rfl

theorem Sys2Proof.Laws.Encoding.shr (a b : Byte) :
    Sys2Proof.Laws.Encoding.Statement (.shr a b) := fun _ => rfl
end

