-- ==== Sys2Proof/Laws/Run.lean ====
section
/-! SUPPORT. The load and runs: what a load that is taken leaves, and the induction over a run. -/

namespace Sys2Proof.Machine

/-- What a load that is taken did: the core was in its reset state, the image fits, and this is the
loaded core. -/
theorem State.load_ok {s t : State} {image : List Byte} (h : s.load image = .ok t) :
    s = State.resetWith s.cfg ∧ s.cfg.loadStart.toNat + image.length ≤ 256 ∧
      t = { State.resetWith s.cfg with
        loaded := true
        mem := Memory.writeBytes [] s.cfg.loadStart.toNat image
        imgEnd := s.cfg.loadStart.toNat + image.length } := by
  unfold State.load at h
  split at h
  · cases h
  · rename_i hr
    have hr : s = State.resetWith s.cfg := Decidable.not_not.mp hr
    split at h
    · cases h
    · rename_i hf
      cases h
      refine ⟨hr, by omega, ?_⟩
      generalize s.cfg = cfg at hr ⊢
      subst hr
      rfl

/-- A core that has had its load is not in its reset state. -/
theorem State.ne_resetWith_of_loaded {s : State} (h : s.loaded = true) (cfg : Config) :
    s ≠ State.resetWith cfg := by
  rintro rfl; cases h

/-- What every step keeps holds of every state of a run if it holds of the first. -/
theorem Reaches.keeps {P : State → Prop} (hstep : ∀ {s t}, P s → Machine.step s = .next t → P t)
    {s t : State} (hr : Reaches s t) (h : P s) : P t := by
  induction hr with
  | refl => exact h
  | step _ h2 ih => exact hstep ih h2

end Sys2Proof.Machine
end

