-- ==== Sys2Proof/Laws/Stack.lean ====
section
/-! SUPPORT. Several pushes or pops at once: when they are legal, and the state they leave; the interrupt
frame of R203, pushed and popped. -/

namespace Sys2Proof.Machine

/-- The state after pushes that are all legal. -/
def State.pushedAll : List (State → Byte) → State → State
  | [], s => s
  | e :: es, s => State.pushedAll es (s.pushed e)

/-- Pushes are legal together iff R7 is in the region R172 leaves for that many bytes. -/
theorem pushAll_legal {es : List (State → Byte)} {s : State}
    (h : s.cfg.stackCheck = false ∨ (s.stackLimit + es.length ≤ (s.readReg .r7).toNat ∧
      (s.readReg .r7).toNat ≤ s.cfg.spInit.toNat)) :
    pushAll es s = .ok (State.pushedAll es s) := by
  induction es generalizing s with
  | nil => rfl
  | cons e es ih =>
    have hl : s.pushLegal = true := by
      rw [State.pushLegal_iff]; simp only [List.length_cons] at h; rcases h with h | h
      · exact .inl h
      · right; omega
    unfold pushAll
    rw [push8_eq, if_pos hl]
    simp only [State.pushedAll]
    apply ih
    rcases h with h | h
    · exact .inl h
    · right
      simp only [List.length_cons] at h
      have e1 : (s.readReg .r7 - 1).toNat + 1 = (s.readReg .r7).toNat := by
        have := (s.readReg .r7).isLt
        simp; omega
      simp only [State.pushed_readReg, State.pushed_stackLimit, State.pushed_cfg, if_true]
      omega

/-- Outside that region, with the check on, they overflow. -/
theorem pushAll_illegal {es : List (State → Byte)} {s : State} (hne : es ≠ [])
    (hc : s.cfg.stackCheck = true)
    (h : ¬(s.stackLimit + es.length ≤ (s.readReg .r7).toNat ∧
      (s.readReg .r7).toNat ≤ s.cfg.spInit.toNat)) :
    pushAll es s = .error .stackOverflow := by
  induction es generalizing s with
  | nil => exact absurd rfl hne
  | cons e es ih =>
    unfold pushAll
    rw [push8_eq]
    cases hl : s.pushLegal with
    | false => rfl
    | true =>
      rcases s.pushLegal_iff.mp hl with h1 | h1
      · rw [hc] at h1; cases h1
      simp only [if_true]
      simp only [List.length_cons] at h
      cases es with
      | nil => exact absurd ⟨by simpa using h1.1, h1.2⟩ h
      | cons e' es =>
        apply ih (s := s.pushed e) (by simp) hc
        have e1 : (s.readReg .r7 - 1).toNat + 1 = (s.readReg .r7).toNat := by
          have := (s.readReg .r7).isLt
          simp; omega
        simp only [State.pushed_readReg, State.pushed_stackLimit, State.pushed_cfg, if_true]
        omega

/-- The state after `popreg`s that are all legal. -/
def State.poppedAll : List Reg → State → State
  | [], s => s
  | i :: is, s => State.poppedAll is (s.popped i)

/-- Pops into registers other than R7 are legal together iff R7 is in the region for that many bytes. -/
theorem popRegs_legal {is : List Reg} {s : State} (hn : ∀ i ∈ is, i ≠ .r7)
    (h : s.cfg.stackCheck = false ∨ (s.stackLimit ≤ (s.readReg .r7).toNat ∧
      (s.readReg .r7).toNat + is.length ≤ s.cfg.spInit.toNat)) :
    popRegs is s = .ok (State.poppedAll is s) := by
  induction is generalizing s with
  | nil => rfl
  | cons i is ih =>
    have hl : s.popLegal = true := by
      rw [State.popLegal_iff]; simp only [List.length_cons] at h; rcases h with h | h
      · exact .inl h
      · right; omega
    unfold popRegs
    rw [popReg_eq, if_pos hl]
    simp only [State.poppedAll]
    apply ih (fun i hi => hn i (.tail _ hi))
    have hi := hn i (.head _)
    simp only [State.popped_readReg, State.popped_stackLimit, State.popped_cfg, if_true, hi, if_false]
    rcases h with h | h
    · exact .inl h
    · right
      simp only [List.length_cons] at h
      have := s.cfg.spInit.isLt
      have e1 : (s.readReg .r7 + 1).toNat = (s.readReg .r7).toNat + 1 := by simp; omega
      omega

/-- Outside that region, with the check on, they underflow. -/
theorem popRegs_illegal {is : List Reg} {s : State} (hn : ∀ i ∈ is, i ≠ .r7) (hne : is ≠ [])
    (hc : s.cfg.stackCheck = true)
    (h : ¬(s.stackLimit ≤ (s.readReg .r7).toNat ∧
      (s.readReg .r7).toNat + is.length ≤ s.cfg.spInit.toNat)) :
    popRegs is s = .error .stackUnderflow := by
  induction is generalizing s with
  | nil => exact absurd rfl hne
  | cons i is ih =>
    unfold popRegs
    rw [popReg_eq]
    cases hl : s.popLegal with
    | false => rfl
    | true =>
      rcases s.popLegal_iff.mp hl with h1 | h1
      · rw [hc] at h1; cases h1
      simp only [if_true]
      simp only [List.length_cons] at h
      cases is with
      | nil => exact absurd ⟨h1.1, by simpa using h1.2⟩ h
      | cons i' is =>
        have hi := hn i (.head _)
        apply ih (fun i hi => hn i (.tail _ hi)) (by simp) (by simpa using hc)
        have := s.cfg.spInit.isLt
        have e1 : (s.readReg .r7 + 1).toNat = (s.readReg .r7).toNat + 1 := by simp; omega
        simp only [State.popped_readReg, State.popped_stackLimit, State.popped_cfg, if_true, hi, if_false]
        omega

/-! ### Byte addresses near the stack pointer -/

theorem byte_sub_chain (p : Byte) : p - 1 - 1 = p - 2 ∧ p - 2 - 1 = p - 3 ∧ p - 3 - 1 = p - 4 ∧
    p - 4 - 1 = p - 5 ∧ p - 5 - 1 = p - 6 ∧ p - 6 - 1 = p - 7 ∧ p - 7 - 1 = p - 8 ∧
    p - 8 - 1 = p - 9 ∧ p - 9 - 1 = p - 10 := by
  refine ⟨?_, ?_, ?_, ?_, ?_, ?_, ?_, ?_, ?_⟩ <;> bv_omega

theorem byte_sub_pairwise_ne (p : Byte) : List.Pairwise (· ≠ ·)
    [p - 1, p - 2, p - 3, p - 4, p - 5, p - 6, p - 7, p - 8, p - 9, p - 10] := by
  simp only [List.pairwise_cons, List.mem_cons, List.not_mem_nil, or_false, forall_eq_or_imp, forall_eq,
    List.Pairwise.nil, and_true, false_imp_iff, imp_true_iff]
  repeat' apply And.intro
  all_goals bv_omega

theorem byte_add_chain (q : Byte) : q + 1 + 1 = q + 2 ∧ q + 2 + 1 = q + 3 ∧ q + 3 + 1 = q + 4 ∧
    q + 4 + 1 = q + 5 ∧ q + 5 + 1 = q + 6 ∧ q + 6 + 1 = q + 7 ∧ q + 7 + 1 = q + 8 ∧ q + 8 + 1 = q + 9 := by
  refine ⟨?_, ?_, ?_, ?_, ?_, ?_, ?_, ?_⟩ <;> bv_omega

theorem byte_add_toNat {q : Byte} {k : Nat} (h : q.toNat + k ≤ 255) : (q + BitVec.ofNat 8 k).toNat = q.toNat + k := by
  simp; omega

theorem byte_zeroExtend_toNat (b : Byte) : (b.zeroExtend 9).toNat = b.toNat := by simp; omega

/-! ### The interrupt frame -/

theorem Flags.toByte_toNat (f : Flags) : f.toByte.toNat = 4 * f.l.toNat + 2 * f.g.toNat + f.e.toNat := by
  rcases f with ⟨_ | _, _ | _, _ | _⟩ <;> rfl

/-- The state after the ten pushes of INT (R203). -/
theorem interruptFrame_pushed (s : State) (ret : Byte) :
    ∃ u, u = State.pushedAll (interruptFrame ret) s ∧
      u.cfg = s.cfg ∧ u.flags = s.flags ∧ u.status = s.status ∧ u.imgStart = s.imgStart ∧
      u.imgEnd = s.imgEnd ∧ u.err = s.err ∧ u.out = s.out ∧ u.pc = s.pc ∧
      u.loaded = s.loaded ∧
      (∀ q, u.readReg q = if q = .r7 then s.readReg .r7 - 10 else s.readReg q) ∧
      (∀ x, u.readMem x =
        if x = s.readReg .r7 - 10 then s.readReg .r7 - 10 else
        if x = s.readReg .r7 - 9 then s.readReg .r6 else
        if x = s.readReg .r7 - 8 then s.readReg .r5 else
        if x = s.readReg .r7 - 7 then s.readReg .r4 else
        if x = s.readReg .r7 - 6 then s.readReg .r3 else
        if x = s.readReg .r7 - 5 then s.readReg .r2 else
        if x = s.readReg .r7 - 4 then s.readReg .r1 else
        if x = s.readReg .r7 - 3 then s.readReg .r0 else
        if x = s.readReg .r7 - 2 then ret else
        if x = s.readReg .r7 - 1 then s.flags.toByte else s.readMem x) := by
  obtain ⟨c1, c2, c3, c4, c5, c6, c7, c8, c9⟩ := byte_sub_chain (s.readReg .r7)
  refine ⟨_, rfl, ?_, ?_, ?_, ?_, ?_, ?_, ?_, ?_, ?_, fun q => ?_, fun x => ?_⟩
  iterate 9 simp [State.pushedAll, interruptFrame]
  · simp only [State.pushedAll, interruptFrame, List.map, State.pushed_readReg, if_true, c1, c2, c3, c4,
      c5, c6, c7, c8, c9]
    by_cases h : q = .r7 <;> simp [h]
  · simp only [State.pushedAll, interruptFrame, List.map, State.pushed_readMem, State.pushed_readReg,
      State.readReg_writeReg, if_true, c1, c2, c3, c4, c5, c6, c7, c8, c9, State.writeReg_flags]
    simp

/-- The state after the eight `popreg`s of IRET; `q` is the popped R7 plus 1 (R201). -/
theorem interruptReturn_popped (s : State) (q : Byte) (hq : q = s.readMem (s.readReg .r7) + 1) :
    ∃ u, u = State.poppedAll [.r7, .r6, .r5, .r4, .r3, .r2, .r1, .r0] s ∧
      u.cfg = s.cfg ∧ u.flags = s.flags ∧ u.status = s.status ∧ u.imgStart = s.imgStart ∧
      u.imgEnd = s.imgEnd ∧ u.err = s.err ∧ u.out = s.out ∧ u.mem = s.mem ∧
      u.stackLimit = s.stackLimit ∧ u.loaded = s.loaded ∧
      u.readReg .r7 = q + 7 ∧ u.readReg .r6 = s.readMem q ∧ u.readReg .r5 = s.readMem (q + 1) ∧
      u.readReg .r4 = s.readMem (q + 2) ∧ u.readReg .r3 = s.readMem (q + 3) ∧
      u.readReg .r2 = s.readMem (q + 4) ∧ u.readReg .r1 = s.readMem (q + 5) ∧
      u.readReg .r0 = s.readMem (q + 6) := by
  obtain ⟨c1, c2, c3, c4, c5, c6, -⟩ := byte_add_chain q
  refine ⟨_, rfl, ?_⟩
  simp only [State.poppedAll]
  refine ⟨by simp, by simp, by simp, by simp, by simp, by simp, by simp, by simp, by simp,
    by simp, ?_⟩
  refine ⟨?_, ?_, ?_, ?_, ?_, ?_, ?_, ?_⟩ <;>
    simp only [State.popped_readReg, State.popped_readMem, if_true, if_false, reduceCtorEq, ← hq, c1, c2,
      c3, c4, c5, c6]

end Sys2Proof.Machine
end

