-- ==== Sys2Proof/Machine/Assembly.lean ====
section
/-! DEFINITION. The written form of an instruction (30_encoding.md R78): `MNEMONIC`, `MNEMONIC Rr`,
`MNEMONIC Ra,Rb`, `LDI Ra,v` with a decimal immediate. Syntax only; no step uses it. -/

namespace Sys2Proof

/-- The mnemonic's spelling (R72, R78). -/
def Mnemonic.spelling : Mnemonic → String
  | .nop => "NOP"
  | .hlt => "HLT"
  | .ret => "RET"
  | .iret => "IRET"
  | .push => "PUSH"
  | .pop => "POP"
  | .prn => "PRN"
  | .pra => "PRA"
  | .call => "CALL"
  | .int => "INT"
  | .jmp => "JMP"
  | .jeq => "JEQ"
  | .jne => "JNE"
  | .jgt => "JGT"
  | .jlt => "JLT"
  | .jle => "JLE"
  | .jge => "JGE"
  | .inc => "INC"
  | .dec => "DEC"
  | .not => "NOT"
  | .ldi => "LDI"
  | .ld => "LD"
  | .st => "ST"
  | .add => "ADD"
  | .sub => "SUB"
  | .mul => "MUL"
  | .div => "DIV"
  | .mod => "MOD"
  | .cmp => "CMP"
  | .and => "AND"
  | .or => "OR"
  | .xor => "XOR"
  | .shl => "SHL"
  | .shr => "SHR"

/-- The written form, as characters; operands in the order of their bytes (R78). `Rk` stands for the
byte `k`; a register operand above 7 has no name, so an ill-formed instruction has no written form. -/
def Instr.written (i : Instr) : Option (List Char) :=
  if i.wellFormed then
    some (i.mnemonic.spelling.toList ++
      match i, i.operands with
      | .ldi a imm, _ => ' ' :: 'R' :: Machine.decimalDigits a ++ ',' :: Machine.decimalDigits imm
      | _, [a, b] => ' ' :: 'R' :: Machine.decimalDigits a ++ ',' :: 'R' :: Machine.decimalDigits b
      | _, [a] => ' ' :: 'R' :: Machine.decimalDigits a
      | _, _ => [])
  else none

end Sys2Proof
end

