-- ==== Sys2Proof/Tests/Slice0.lean ====
section
/-! SUPPORT. Tests. Expected results come from spec/95_test_vectors.md (the vector's id in each
comment), from the worked examples of the rules, or from the encodings of 30_encoding.md R72 written out. -/

namespace Sys2Proof.Tests

open Sys2Proof.Machine

/-- A core just loaded with `image`, then some registers set. -/
def ready (image : List Byte) (regs : List (Reg × Byte) := []) : State :=
  let s : State := { State.reset with
    loaded := true
    mem := State.reset.mem.writeBytes 0 image
    imgEnd := image.length }
  regs.foldl (fun s p => s.writeReg p.1 p.2) s

/-- The state after one step, if there is one. -/
def after (s : State) : Option State :=
  match step s with
  | .next t => some t
  | _ => none

/-- The next state of one instruction, if there is one. -/
def taken (i : Instr) (s : State) : Option State :=
  match exec i s with
  | .next t => some t
  | _ => none

/-- What one step leaves: a register, the pc, the flags as E, G, L. -/
def seen (r : Reg) (s : State) : Option (Nat × Nat × Bool × Bool × Bool) :=
  (after s).map fun t => ((t.readReg r).toNat, t.pc.toNat, t.flags.e, t.flags.g, t.flags.l)

/-- The error record one step leaves in a Halted core. -/
def fails (s : State) : Option (FaultName × Nat × Option Byte) :=
  match after s with
  | some t =>
    match t.status, t.err with
    | .halted (.fault f), some r => if f = r.reason then some (f, r.addr.toNat, r.byte) else none
    | _, _ => none
  | none => none

/-! ### WellFormed refuses ill-formed terms -/

theorem test_wf_refuses_unary : ∀ c ∈ [Instr.push, .pop, .prn, .pra, .call, .int, .jmp, .jeq, .jne,
    .jgt, .jlt, .jle, .jge, .inc, .dec, .not], (c 8).wellFormed = false := by decide

theorem test_wf_refuses_operand_a : ∀ c ∈ [Instr.ldi, .ld, .st, .add, .sub, .mul, .div, .mod, .cmp,
    .and, .or, .xor, .shl, .shr], (c 8 0).wellFormed = false := by decide

theorem test_wf_refuses_operand_b : ∀ c ∈ [Instr.ld, .st, .add, .sub, .mul, .div, .mod, .cmp,
    .and, .or, .xor, .shl, .shr], (c 0 255).wellFormed = false := by decide

theorem test_wf_accepts_immediate : (Instr.ldi 7 255).wellFormed = true := by decide

/-! ### Decoding: words written out from R72 -/

theorem test_decode_f0 : [0b00000000, 0b00000001, 0b00010001, 0b00010011].map (decodeTableWord 8) =
    [some .nop, some .hlt, some .ret, some .iret] := by decide

theorem test_decode_stack_output : [0b0000010101000101, 0b0000010101000110, 0b0000010101000111,
    0b0000010101001000].map (decodeTableWord 16) =
    [some (.push 5), some (.pop 5), some (.prn 5), some (.pra 5)] := by decide

theorem test_decode_control : [0b0000001101010000, 0b0000001101010010, 0b0000001101010100,
    0b0000001101010101, 0b0000001101010110, 0b0000001101010111, 0b0000001101011000,
    0b0000001101011001, 0b0000001101011010].map (decodeTableWord 16) =
    [some (.call 3), some (.int 3), some (.jmp 3), some (.jeq 3), some (.jne 3), some (.jgt 3),
     some (.jlt 3), some (.jle 3), some (.jge 3)] := by decide

theorem test_decode_unary : [0b0000011001100101, 0b0000011001100110, 0b0000011001101001].map
    (decodeTableWord 16) = [some (.inc 6), some (.dec 6), some (.not 6)] := by decide

theorem test_decode_load_store : [0b100000000000011110000010, 0b000000100000011110000011,
    0b000000100000011110000100].map (decodeTableWord 24) =
    [some (.ldi 7 128), some (.ld 7 2), some (.st 7 2)] := by decide

theorem test_decode_arithmetic : [0b000000100000000110100000, 0b000000100000000110100001,
    0b000000100000000110100010, 0b000000100000000110100011, 0b000000100000000110100100,
    0b000000100000000110100111].map (decodeTableWord 24) =
    [some (.add 1 2), some (.sub 1 2), some (.mul 1 2), some (.div 1 2), some (.mod 1 2),
     some (.cmp 1 2)] := by decide

theorem test_decode_logic : [0b000000100000000110101000, 0b000000100000000110101010,
    0b000000100000000110101011, 0b000000100000000110101100, 0b000000100000000110101101].map
    (decodeTableWord 24) =
    [some (.and 1 2), some (.or 1 2), some (.xor 1 2), some (.shl 1 2), some (.shr 1 2)] := by decide

/-- R73's own list of illegal bytes whose fields look well formed. -/
theorem test_decode_refuses_illegal : [0xA5, 0xA6, 0xA9, 0xAE, 0xAF, 0x53, 0x5B, 0x5F, 0x02, 0x0F, 0xC0,
    0xFF].map (decodeTableWord 8) = List.replicate 12 none := by decide

/-- R79's worked example. -/
theorem test_encode_ldi_prn_hlt : [Instr.ldi 0 8, .prn 0, .hlt].map encode =
    [[0x82, 0x00, 0x08], [0x47, 0x00], [0x01]] := by decide

/-- No two rows of the opcode table overlap. -/
theorem test_opcodeTable_no_overlap :
    opcodeTable.length = 34 ∧ opcodeTable.Pairwise (fun r q => r.opcode ≠ q.opcode) := by decide

/-- R78's spelling of R79's example and of a two-register form. -/
theorem test_written : [Instr.ldi 0 8, .add 0 1, .hlt, .add 0 9].map Instr.written =
    [some ['L', 'D', 'I', ' ', 'R', '0', ',', '8'], some ['A', 'D', 'D', ' ', 'R', '0', ',', 'R', '1'],
     some ['H', 'L', 'T'], none] := by decide

/-! ### ALU (41_alu.md) -/

/-- V-ADD-1, V-RR-1. -/
theorem test_add_wraps : seen .r0 (ready [0xA0, 0, 1] [(.r0, 200), (.r1, 100)]) =
    some (44, 3, false, false, false) := by decide
theorem test_add_same : seen .r0 (ready [0xA0, 0, 0] [(.r0, 100)]) =
    some (200, 3, false, false, false) := by decide
/-- V-SUB-1. -/
theorem test_sub_wraps : seen .r0 (ready [0xA1, 0, 1] [(.r0, 3), (.r1, 5)]) =
    some (254, 3, false, false, false) := by decide
/-- V-MUL-3. -/
theorem test_mul_low_byte : seen .r0 (ready [0xA2, 0, 1] [(.r0, 255), (.r1, 255)]) =
    some (1, 3, false, false, false) := by decide
/-- R123's example, V-DIV-4. -/
theorem test_div_floor : seen .r0 (ready [0xA3, 0, 1] [(.r0, 200), (.r1, 7)]) =
    some (28, 3, false, false, false) := by decide
theorem test_div_zero : fails (ready [0xA3, 0, 1] [(.r0, 5)]) =
    some (.divisionByZero, 0, some 0xA3) := by decide
/-- V-MOD-2, V-MOD-3. -/
theorem test_mod : seen .r0 (ready [0xA4, 0, 1] [(.r0, 200), (.r1, 7)]) =
    some (4, 3, false, false, false) := by decide
theorem test_mod_zero : fails (ready [0xA4, 0, 1] [(.r0, 5)]) =
    some (.divisionByZero, 0, some 0xA4) := by decide
/-- V-AND-1, V-OR-1, V-XOR-1. -/
theorem test_and : seen .r0 (ready [0xA8, 0, 1] [(.r0, 0xF0), (.r1, 0x3C)]) =
    some (0x30, 3, false, false, false) := by decide
theorem test_or : seen .r0 (ready [0xAA, 0, 1] [(.r0, 0xF0), (.r1, 0x0F)]) =
    some (0xFF, 3, false, false, false) := by decide
theorem test_xor : seen .r0 (ready [0xAB, 0, 1] [(.r0, 0xFF), (.r1, 0x0F)]) =
    some (0xF0, 3, false, false, false) := by decide
/-- V-SHL-1, V-SHL-3. -/
theorem test_shl_loses_bit7 : seen .r0 (ready [0xAC, 0, 1] [(.r0, 0x81), (.r1, 1)]) =
    some (2, 3, false, false, false) := by decide
theorem test_shl_count8 : seen .r0 (ready [0xAC, 0, 1] [(.r0, 1), (.r1, 8)]) =
    some (0, 3, false, false, false) := by decide
/-- V-SHR-2, V-SHR-3. -/
theorem test_shr_logical : seen .r0 (ready [0xAD, 0, 1] [(.r0, 0x81), (.r1, 1)]) =
    some (0x40, 3, false, false, false) := by decide
theorem test_shr_count8 : seen .r0 (ready [0xAD, 0, 1] [(.r0, 0xFF), (.r1, 8)]) =
    some (0, 3, false, false, false) := by decide
/-- V-NOT-2, V-INC-2, V-DEC-2. -/
theorem test_not : seen .r0 (ready [0x69, 0] [(.r0, 0x5A)]) =
    some (0xA5, 2, false, false, false) := by decide
theorem test_inc_wraps : seen .r0 (ready [0x65, 0] [(.r0, 255)]) =
    some (0, 2, false, false, false) := by decide
theorem test_dec_wraps : seen .r0 (ready [0x66, 0] [(.r0, 0)]) =
    some (255, 2, false, false, false) := by decide
/-- V-CMP-2, V-CMP-4. -/
theorem test_cmp_greater : seen .r0 (ready [0xA7, 0, 1] [(.r0, 5), (.r1, 3)]) =
    some (5, 3, false, true, false) := by decide
theorem test_cmp_unsigned : seen .r0 (ready [0xA7, 0, 1] [(.r0, 0), (.r1, 255)]) =
    some (0, 3, false, false, true) := by decide
/-- V-R7-1. -/
theorem test_add_r7 : seen .r7 (ready [0xA0, 7, 0] [(.r0, 12)]) =
    some (0, 3, false, false, false) := by decide

/-! ### Load, store, output -/

/-- V-LDI-1, V-LDI-2. -/
theorem test_ldi : seen .r3 (ready [0x82, 3, 0xFF]) = some (255, 3, false, false, false) := by decide
theorem test_ldi_bad_register : fails (ready [0x82, 9, 1]) =
    some (.invalidRegisterIndex, 0, some 0x82) := by decide
/-- V-LD-1, V-LD-2. -/
theorem test_ld : seen .r0 ((ready [0x83, 0, 1] [(.r1, 0xF8)]).writeMem 0xF8 0x40) =
    some (0x40, 3, false, false, false) := by decide
theorem test_ld_same : seen .r1 (ready [0x83, 1, 1] [(.r1, 2)]) =
    some (1, 3, false, false, false) := by decide
/-- V-ST-1, V-ST-4. -/
theorem test_st : (after (ready [0x84, 0, 1] [(.r0, 0xF8), (.r1, 0x40)])).map
    (fun t => (t.readMem 0xF8, t.readMem 0x40, t.pc.toNat)) = some (0x40, 0, 3) := by decide
theorem test_st_code : (after (ready [0x84, 0, 1] [(.r0, 0), (.r1, 1)])).map
    (fun t => (t.fetch 0, t.fetch 2)) = some (some 1, some 1) := by decide
/-- V-PRN-1, V-PRA-1. -/
theorem test_prn : (after (ready [0x47, 0] [(.r0, 8)])).map (fun t => (t.out, t.pc.toNat)) =
    some ([.dec 8], 2) := by decide
theorem test_pra : (after (ready [0x48, 1] [(.r1, 65)])).map (fun t => (t.out, t.pc.toNat)) =
    some ([.chr 65], 2) := by decide
/-- R160 to R162: the rendered text. -/
theorem test_render : renderAll [.dec 8, .dec 0, .dec 255, .chr 65, .chr 10] =
    ['8', '\n', '0', '\n', '2', '5', '5', '\n', 'A', '\n'] := by decide

/-! ### Stack -/

/-- V-PUSH-2, V-PUSH-4. -/
theorem test_push_r7 : (after (ready [0x45, 7])).map
    (fun t => (t.readReg .r7, t.readMem 0xF3, t.pc.toNat)) = some (0xF3, 0xF3, 2) := by decide
theorem test_push_overflow : fails (ready [0x45, 0] [(.r7, 2)]) =
    some (.stackOverflow, 0, some 0x45) := by decide
/-- V-PUSH-6: STACK_CHECK off. -/
theorem test_push_wraps_unchecked :
    (after { ready [0x45, 0] [(.r0, 9), (.r7, 0)] with
      cfg := { Config.default with stackCheck := false } }).map
    (fun t => (t.readReg .r7, t.readMem 0xFF)) = some (0xFF, 9) := by decide
/-- V-POP-2, V-POP-3. -/
theorem test_pop_r7 : seen .r7 ((ready [0x46, 7] [(.r7, 0xF3)]).writeMem 0xF3 0x2A) =
    some (0x2B, 2, false, false, false) := by decide
theorem test_pop_empty : fails (ready [0x46, 0]) = some (.stackUnderflow, 0, some 0x46) := by decide

/-! ### Control -/

/-- V-CALL-1, V-CALL-2. -/
theorem test_call : (after (ready [0x50, 1] [(.r1, 0x10)])).map
    (fun t => (t.readReg .r7, t.readMem 0xF3, t.pc.toNat)) = some (0xF3, 2, 0x10) := by decide
theorem test_call_r7 : (after (ready [0x50, 7])).map
    (fun t => (t.readReg .r7, t.readMem 0xF3, t.pc.toNat)) = some (0xF3, 2, 0xF3) := by decide
/-- V-RET-1, V-RET-2. -/
theorem test_ret : seen .r7 ((ready [0x11] [(.r7, 0xF3)]).writeMem 0xF3 2) =
    some (0xF4, 2, false, false, false) := by decide
theorem test_ret_empty : fails (ready [0x11]) = some (.stackUnderflow, 0, some 0x11) := by decide
/-- V-JMP-1. -/
theorem test_jmp : seen .r1 (ready [0x54, 1] [(.r1, 0x30)]) =
    some (0x30, 0x30, false, false, false) := by decide

/-- The pcs a conditional jump gives under FL = 000, E, G, L (R2 = 4). -/
def jumpColumn (op : Byte) : List (Option Nat) :=
  [Flags.mk false false false, .mk true false false, .mk false true false, .mk false false true].map
    fun f => (after { ready [op, 2, 0, 0, 0] [(.r2, 4)] with flags := f }).map fun t => t.pc.toNat

/-- V-JEQ, V-JNE, V-JGT, V-JLT, V-JLE, V-JGE. -/
theorem test_jeq : jumpColumn 0x55 = [some 2, some 4, some 2, some 2] := by decide
theorem test_jne : jumpColumn 0x56 = [some 4, some 2, some 4, some 4] := by decide
theorem test_jgt : jumpColumn 0x57 = [some 2, some 2, some 4, some 2] := by decide
theorem test_jlt : jumpColumn 0x58 = [some 2, some 2, some 2, some 4] := by decide
theorem test_jle : jumpColumn 0x59 = [some 2, some 4, some 2, some 4] := by decide
theorem test_jge : jumpColumn 0x5A = [some 2, some 4, some 4, some 2] := by decide

/-- V-HLT-1. -/
theorem test_hlt : (after (ready [0x01])).map (fun t => (t.status, t.pc.toNat, t.err)) =
    some (.halted .ok, 0, none) := by decide
theorem test_halted_no_step : after { ready [0x00] with status := .halted .ok } = none := by decide
/-- R106's example. -/
theorem test_nop : seen .r7 { ready [0x01, 0x01, 0x01, 0x00] with pc := 3 } =
    some (0xF4, 4, false, false, false) := by decide

/-! ### Interrupts (V-INT-1, V-IRET-1, V-INT-2, V-IRET-2) -/

/-- The pre-state of V-INT-1. -/
def interruptState : State :=
  let s := ready [] [(.r1, 1), (.r2, 2), (.r3, 3), (.r4, 4), (.r5, 5), (.r6, 6)]
  { s with
    imgEnd := 0x50
    mem := ((s.mem.writeBytes 0x10 [0x52, 0]).writeBytes 0x40 [0x13]).write 0xF8 0x40
    flags := .mk false false true
    pc := 0x10 }

theorem test_int_frame : (after interruptState).map (fun t =>
    ([0xF3, 0xF2, 0xF1, 0xF0, 0xEF, 0xEE, 0xED, 0xEC, 0xEB, 0xEA].map t.readMem, t.readReg .r7,
      t.pc.toNat, t.flags)) =
    some ([0x04, 0x12, 0, 1, 2, 3, 4, 5, 6, 0xEA], 0xEA, 0x40, .mk false false true) := by decide

theorem test_iret_restores : ((after interruptState).bind fun t =>
    after ({ t with flags := .mk true false false }.writeReg .r3 0x99)).map (fun t => (t.regs, t.pc.toNat,
      t.flags)) =
    some ({ r0 := 0, r1 := 1, r2 := 2, r3 := 3, r4 := 4, r5 := 5, r6 := 6, r7 := 0xF4 }, 0x12,
      .mk false false true) := by decide

theorem test_int_number : fails (ready [0x52, 0] [(.r0, 8)]) =
    some (.invalidInterruptNumber, 0, some 0x52) := by decide
theorem test_iret_empty : fails (ready [0x13]) = some (.stackUnderflow, 0, some 0x13) := by decide

/-! ### Fetch, decode and the order of checks (V-F-1, V-F-3 to V-F-6, V-PUSH-7, V-CALL-3, V-JMP-2, V-NOP-1) -/

theorem test_unknown : fails (ready [0x02]) = some (.unknownOpcode, 0, some 0x02) := by decide
theorem test_truncated : fails (ready [0xA0, 0]) =
    some (.programCounterOutOfBounds, 0, some 0xA0) := by decide
theorem test_bad_registers : fails (ready [0xA0, 8, 9]) =
    some (.invalidRegisterIndex, 0, some 0xA0) := by decide
theorem test_register_before_division : fails (ready [0xA3, 0, 9]) =
    some (.invalidRegisterIndex, 0, some 0xA3) := by decide
theorem test_register_before_stack : fails (ready [0x45, 8] [(.r7, 1)]) =
    some (.invalidRegisterIndex, 0, some 0x45) := by decide
theorem test_empty_image : fails (ready []) = some (.programCounterOutOfBounds, 0, none) := by decide

/-- A state whose image is all of memory, with bytes at its end and the pc there. -/
def atEnd (bytes : List Byte) : State :=
  let a := 256 - bytes.length
  { State.reset with
    loaded := true
    mem := State.reset.mem.writeBytes a bytes
    imgEnd := 256
    pc := BitVec.ofNat 9 a }

theorem test_call_at_254 : fails (atEnd [0x50, 0]) =
    some (.programCounterOutOfBounds, 254, some 0x50) := by decide
theorem test_int_at_254 : fails (atEnd [0x52, 0]) =
    some (.programCounterOutOfBounds, 254, some 0x52) := by decide
theorem test_operand_past_memory : fails (atEnd [0x54]) =
    some (.programCounterOutOfBounds, 255, some 0x54) := by decide
theorem test_nop_at_255 : seen .r0 (atEnd [0x00]) = some (0, 256, false, false, false) := by decide
theorem test_fetch_at_256 : ((after (atEnd [0x00])).bind fun t => fails t) =
    some (.programCounterOutOfBounds, 256, none) := by decide

/-! ### Load and withFetchWord -/

/-- R56, R251: the image lands at 0, the extent covers it. -/
theorem test_load : (match State.reset.load [0x82, 0, 8] with
    | .ok s => some (s.readMem 0, s.readMem 2, s.imgEnd, s.pc.toNat, s.mem.length)
    | .error _ => none) = some (0x82, 8, 3, 0, 2) := by decide

/-- R56: an image that does not fit is rejected (LoadOverflow). -/
theorem test_load_overflow :
    (match (State.resetWith { Config.default with loadStart := 255 }).load [1, 2] with
    | .ok _ => none
    | .error e => some e) = some .loadOverflow := by decide

theorem test_withFetchWord : seen .r0 (State.reset.withFetchWord 24 0x080082) =
    some (8, 3, false, false, false) := by decide

/-! ### Witnesses: states that meet the hypotheses of the obligations, one per clause -/

/-- The same state with STACK_CHECK off. -/
def unchecked (s : State) : State := { s with cfg := { s.cfg with stackCheck := false } }

/-- A state with R7 = `sp` and an image of two bytes, so that STACK_LIMIT = 2. -/
def withSp (sp : Byte) : State := ready [0x45, 0] [(.r7, sp)]

/-- `ready` states meet the invariant. -/
theorem ready_inv : Inv (ready [0x47, 0] [(.r0, 8)]) where
  mem := by decide
  pc := by decide
  image := by decide
  running := fun _ => rfl
  succeeded := fun _ => rfl
  failed := fun f h => by cases h

theorem witness_DecodeAndEncodeAreInverse :
    decode [0x82, 7, 255, 1] = .ok (.ldi 7 255, [1]) ∧ decode [0x00] = .ok (.nop, []) := ⟨rfl, rfl⟩

theorem witness_DecodingAcceptsExactlyTheTable :
    (ready [0xFF]).status = .running ∧ (ready [0xFF]).fetch (ready [0xFF]).pc.toNat = some 0xFF ∧
      ∀ e ∈ opcodeMap, e.1 ≠ 0xFF := by decide

theorem witness_StepRunsTheDecodedInstruction :
    (ready [0x00]).status = .running ∧ (ready [0x00]).fetchBytes (ready [0x00]).pc.toNat 1 = some [0x00] ∧
    decode [0x00] = .ok (.nop, []) ∧ (atEnd [0xA0, 7, 0]).status = .running ∧
    (atEnd [0xA0, 7, 0]).fetchBytes (atEnd [0xA0, 7, 0]).pc.toNat 3 = some [0xA0, 7, 0] ∧
    decode [0xA0, 7, 0] = .ok (.add 7 0, []) :=
  ⟨by decide, by decide, rfl, by decide, by decide, rfl⟩

theorem witness_StepExistsExactlyWhileRunning :
    ((ready []).halt .ok).status = .halted .ok ∧
    ((ready []).halt (.fault .stackOverflow)).status = .halted (.fault .stackOverflow) := by decide

theorem witness_FetchIsBoundedByImageAndMemory :
    (ready []).status = .running ∧ (ready []).fetch (ready []).pc.toNat = none ∧
    ({ atEnd [] with pc := 256 } : State).fetch 256 = none ∧
    (atEnd [0x54]).status = .running ∧ (atEnd [0x54]).fetch (atEnd [0x54]).pc.toNat = some 0x54 ∧
    (lookupOpcode 0x54).map (fun r => r.operandCount) = some 1 ∧
    (atEnd [0x54]).fetch ((atEnd [0x54]).pc.toNat + 1) = none ∧
    (ready [0xA0, 0]).fetch (ready [0xA0, 0]).pc.toNat = some 0xA0 ∧
    (lookupOpcode 0xA0).map (fun r => r.operandCount) = some 2 ∧
    (ready [0xA0, 0]).fetch ((ready [0xA0, 0]).pc.toNat + 2) = none := by decide

theorem witness_RegisterOperandAboveSevenFaults :
    (∃ b ∈ registerOperands (.add 0 8), 7 < b.toNat) ∧
    (∀ b ∈ registerOperands (.ldi 7 255), b.toNat ≤ 7) ∧
    (∃ t, exec (.ldi 7 255) (ready []) = .next t) ∧ (ready []).status = .running :=
  ⟨by decide, by decide, ⟨_, rfl⟩, by decide⟩

theorem witness_DivWritesTheQuotientOrFaults :
    (ready [] [(.r1, 1)]).readReg .r1 ≠ 0 ∧ (ready []).readReg .r1 = 0 := by decide

theorem witness_ModWritesTheRemainderOrFaults :
    (ready [] [(.r1, 255)]).readReg .r1 ≠ 0 ∧ (ready []).readReg .r0 = 0 := by decide

theorem witness_ShiftsUseTheWholeCount : 8 ≤ ((ready [] [(.r1, 8)]).readReg .r1).toNat := by decide

/-- The register clause of the load, store, output, stack, control and interrupt statements. -/
theorem witness_register_byte : 7 < (8 : Byte).toNat := by decide

theorem witness_StWritesOnlyTheAddressedByte :
    ∃ t, exec (.st 0 1) (ready [0x84, 0, 1] [(.r0, 2)]) = .next t ∧ t.fetch 2 = some 0 := ⟨_, rfl, rfl⟩

theorem witness_PushStoresBelowTheStackPointer :
    ((withSp 3).stackLimit + 1 ≤ ((withSp 3).readReg .r7).toNat ∧
      ((withSp 3).readReg .r7).toNat ≤ (withSp 3).cfg.spInit.toNat) ∧
    ((withSp 0xF4).stackLimit + 1 ≤ ((withSp 0xF4).readReg .r7).toNat ∧
      ((withSp 0xF4).readReg .r7).toNat ≤ (withSp 0xF4).cfg.spInit.toNat) ∧
    (unchecked (withSp 0)).cfg.stackCheck = false ∧
    (withSp 2).cfg.stackCheck = true ∧
    ¬((withSp 2).stackLimit + 1 ≤ ((withSp 2).readReg .r7).toNat ∧
      ((withSp 2).readReg .r7).toNat ≤ (withSp 2).cfg.spInit.toNat) ∧
    ¬((withSp 0xF5).stackLimit + 1 ≤ ((withSp 0xF5).readReg .r7).toNat ∧
      ((withSp 0xF5).readReg .r7).toNat ≤ (withSp 0xF5).cfg.spInit.toNat) ∧
    (withSp 2).pc.toNat + 2 ≤ 255 ∧ ((withSp 2).readReg .r0).toNat < (withSp 2).cfg.intVectorCount := by
  decide

theorem witness_PopReadsTheTopOfTheStack :
    ((withSp 2).stackLimit ≤ ((withSp 2).readReg .r7).toNat ∧
      ((withSp 2).readReg .r7).toNat + 1 ≤ (withSp 2).cfg.spInit.toNat) ∧
    ((withSp 0xF3).stackLimit ≤ ((withSp 0xF3).readReg .r7).toNat ∧
      ((withSp 0xF3).readReg .r7).toNat + 1 ≤ (withSp 0xF3).cfg.spInit.toNat) ∧
    (unchecked (withSp 0xF4)).cfg.stackCheck = false ∧
    (withSp 0xF4).cfg.stackCheck = true ∧
    ¬((withSp 0xF4).stackLimit ≤ ((withSp 0xF4).readReg .r7).toNat ∧
      ((withSp 0xF4).readReg .r7).toNat + 1 ≤ (withSp 0xF4).cfg.spInit.toNat) ∧
    ¬((withSp 1).stackLimit ≤ ((withSp 1).readReg .r7).toNat ∧
      ((withSp 1).readReg .r7).toNat + 1 ≤ (withSp 1).cfg.spInit.toNat) := by decide

theorem witness_StackPointerWrapsOnlyUnchecked :
    (unchecked (withSp 0)).cfg.stackCheck = false ∧ (unchecked (withSp 0)).status = .running ∧
    (∃ t, exec (.push 0) (unchecked (withSp 0)) = .next t) ∧
    (unchecked (withSp 0)).readReg .r7 = 0 ∧ (unchecked (withSp 255)).readReg .r7 = 255 ∧
    Reg.r0 ≠ .r7 ∧ (withSp 0).cfg.stackCheck = true ∧ (withSp 0).readReg .r7 = 0 ∧
    (withSp 255).readReg .r7 = 255 :=
  ⟨by decide, by decide, ⟨_, rfl⟩, by decide, by decide, by decide, by decide, by decide, by decide⟩

theorem witness_PushThenPopIsIdentity : ∃ t u, (withSp 0xF4).status = .running ∧
    exec (.push Reg.r7.toByte) (withSp 0xF4) = .next t ∧ t.status = .running ∧
    exec (.pop Reg.r7.toByte) t = .next u ∧ u.status = .running :=
  ⟨_, _, by decide, rfl, rfl, rfl, rfl⟩

theorem witness_CallPushesTheReturnAddress :
    (atEnd [0x50, 0, 0]).pc.toNat + 2 ≤ 255 ∧ (atEnd [0x50, 0, 0]).cfg.stackCheck = true ∧
    ¬((atEnd [0x50, 0, 0]).stackLimit + 1 ≤ ((atEnd [0x50, 0, 0]).readReg .r7).toNat ∧
      ((atEnd [0x50, 0, 0]).readReg .r7).toNat ≤ (atEnd [0x50, 0, 0]).cfg.spInit.toNat) ∧
    255 < (atEnd [0x50, 0]).pc.toNat + 2 ∧ (withSp 3).pc.toNat + 2 ≤ 255 ∧
    ((withSp 3).stackLimit + 1 ≤ ((withSp 3).readReg .r7).toNat ∧
      ((withSp 3).readReg .r7).toNat ≤ (withSp 3).cfg.spInit.toNat) ∧
    (unchecked (withSp 3)).cfg.stackCheck = false := by decide

theorem witness_RetJumpsToThePoppedByte :
    ((withSp 2).stackLimit ≤ ((withSp 2).readReg .r7).toNat ∧
      ((withSp 2).readReg .r7).toNat + 1 ≤ (withSp 2).cfg.spInit.toNat) ∧
    (unchecked (withSp 255)).cfg.stackCheck = false ∧ (withSp 0xF4).cfg.stackCheck = true ∧
    ¬((withSp 0xF4).stackLimit ≤ ((withSp 0xF4).readReg .r7).toNat ∧
      ((withSp 0xF4).readReg .r7).toNat + 1 ≤ (withSp 0xF4).cfg.spInit.toNat) := by decide

theorem witness_CallThenRetResumesAfterTheCall : ∃ t u v, (withSp 0xF4).status = .running ∧
    exec (.call Reg.r1.toByte) (withSp 0xF4) = .next t ∧ t.status = .running ∧ u = t.writeReg .r0 9 ∧
    u.status = .running ∧ u.cfg = t.cfg ∧ u.imgEnd = t.imgEnd ∧ u.readReg .r7 = t.readReg .r7 ∧
    u.readMem (t.readReg .r7) = t.readMem (t.readReg .r7) ∧ exec .ret u = .next v :=
  ⟨_, _, _, by decide, rfl, rfl, rfl, rfl, rfl, rfl, rfl, rfl, rfl⟩

theorem witness_ConditionalJumpsTestTheFlags :
    let s : State := { ready [] with flags := .mk true false false }
    s.flags.e = true ∧ ¬s.flags.e = false ∧ s.flags.g = false ∧ s.flags.l = false ∧
      (s.flags.g = true ∨ s.flags.e = true) ∧ (s.flags.l = true ∨ s.flags.e = true) ∧
      ¬((ready []).flags.g = true ∨ (ready []).flags.e = true) ∧ (ready []).flags.e = false ∧
      ¬((ready []).flags.l = true ∨ (ready []).flags.e = true) ∧
      ({ s with flags := .mk false true true } : State).flags.g = true ∧
      ({ s with flags := .mk false true true } : State).flags.l = true := by decide

theorem witness_HltHaltsWithOk : ∃ t, step (ready [0x01]) = .next t ∧ t.status = .halted .ok :=
  ⟨_, rfl, rfl⟩

theorem witness_NopOnlyAdvancesThePc :
    (atEnd [0x00]).status = .running ∧ (atEnd [0x00]).pc.toNat = 255 := by decide

/-- Vector base `base` instead of 0xF8, with `n` slots, R7 = `sp`, R0 = `number`, the pc at `pc`. -/
def interruptAt (base : Byte) (n : Nat) (sp number : Byte) (pc : PcWord) : State :=
  { ready [0x52, 0] [(.r7, sp), (.r0, number)] with
    cfg := { Config.default with intVectorBase := base, intVectorCount := n }
    pc := pc }

theorem witness_IntPushesTheFrameAndJumps :
    (∀ s ∈ [interruptAt 0xF8 8 12 7 253, interruptAt 0xF8 8 0xF4 0 0],
      (s.readReg .r0).toNat < s.cfg.intVectorCount ∧
      s.cfg.intVectorBase.toNat + (s.readReg .r0).toNat ≤ 255 ∧ s.pc.toNat + 2 ≤ 255 ∧
      s.stackLimit + 10 ≤ (s.readReg .r7).toNat ∧ (s.readReg .r7).toNat ≤ s.cfg.spInit.toNat) ∧
    (unchecked (interruptAt 0xF8 8 5 7 0)).cfg.stackCheck = false ∧
    (let s := interruptAt 0xF8 8 0xF4 8 0; s.cfg.intVectorCount ≤ (s.readReg .r0).toNat) ∧
    (let s := interruptAt 0xF8 8 0xF4 7 254; (s.readReg .r0).toNat < s.cfg.intVectorCount ∧
      255 < s.pc.toNat + 2) ∧
    ∀ s ∈ [interruptAt 0xF8 8 11 7 253, interruptAt 0xF8 8 0xF5 7 0],
      (s.readReg .r0).toNat < s.cfg.intVectorCount ∧ s.pc.toNat + 2 ≤ 255 ∧ s.cfg.stackCheck = true ∧
      ¬(s.stackLimit + 10 ≤ (s.readReg .r7).toNat ∧ (s.readReg .r7).toNat ≤ s.cfg.spInit.toNat) := by
  decide

theorem witness_IretPopsTheFrame :
    (let s := (withSp 0xEA).writeMem 0xEA 0xEA
     let q := s.readMem (s.readReg .r7) + 1
     s.stackLimit ≤ (s.readReg .r7).toNat ∧ (s.readReg .r7).toNat + 1 ≤ s.cfg.spInit.toNat ∧
       s.stackLimit ≤ q.toNat ∧ q.toNat + 9 ≤ s.cfg.spInit.toNat) ∧
    (unchecked (withSp 0xEA)).cfg.stackCheck = false ∧ (withSp 0xEA).cfg.stackCheck = true ∧
    ∀ s ∈ [(withSp 0xEA).writeMem 0xEA 0xEB, (withSp 0xEA).writeMem 0xEA 0, withSp 0xF4, withSp 1],
     ¬(s.stackLimit ≤ (s.readReg .r7).toNat ∧ (s.readReg .r7).toNat + 1 ≤ s.cfg.spInit.toNat ∧
       s.stackLimit ≤ (s.readMem (s.readReg .r7) + 1).toNat ∧
       (s.readMem (s.readReg .r7) + 1).toNat + 9 ≤ s.cfg.spInit.toNat) := by decide

theorem witness_IntThenIretResumesTheProgram : ∃ t u, interruptState.status = .running ∧
    exec (.int Reg.r0.toByte) interruptState = .next t ∧ t.status = .running ∧
    u = (t.writeReg .r0 9).setFlags (.mk true true false) ∧ u.status = .running ∧ u.cfg = t.cfg ∧
    u.imgEnd = t.imgEnd ∧ u.readReg .r7 = t.readReg .r7 ∧
    (∀ k : Nat, k < 10 → u.readMem (t.readReg .r7 + BitVec.ofNat 8 k) =
      t.readMem (t.readReg .r7 + BitVec.ofNat 8 k)) := by
  have h : (taken (.int Reg.r0.toByte) interruptState).map (fun t => t.status) = some .running := by decide
  unfold taken at h
  split at h
  · rename_i t e
    have ht : t.status = .running := by simpa using h
    exact ⟨t, _, by decide, e, ht, rfl, ht, rfl, rfl, rfl, fun _ _ => rfl⟩
  · cases h

theorem witness_VectorSlotPastMemoryFaults :
    let s := interruptAt 0xFF 2 0xF4 1 0
    (s.readReg .r0).toNat < s.cfg.intVectorCount ∧ s.pc.toNat + 2 ≤ 255 ∧
    s.stackLimit + 10 ≤ (s.readReg .r7).toNat ∧ (s.readReg .r7).toNat ≤ s.cfg.spInit.toNat ∧
    255 < s.cfg.intVectorBase.toNat + (s.readReg .r0).toNat ∧
    (unchecked s).cfg.stackCheck = false := by decide

/-- A next state that is not Halted with a fault. -/
def completes (i : Instr) (s : State) : Prop := ∃ t, exec i s = .next t ∧ ¬t.Failed

theorem completes_running {i : Instr} {s t : State} (h : exec i s = .next t) (hr : t.status = .running) :
    completes i s := ⟨t, h, fun ⟨f, hf⟩ => by rw [hr] at hf; cases hf⟩

theorem witness_OnlyCmpAndIretWriteFlags :
    completes (.add 0 1) (ready []) ∧ (Instr.add 0 1).mnemonic ∉ [Mnemonic.cmp, .iret] :=
  ⟨completes_running rfl rfl, by decide⟩

theorem witness_OnlyStPushCallIntWriteMemory : completes (.pop 7) (withSp 2) ∧
    (Instr.pop 7).mnemonic ∉ [Mnemonic.st, .push, .call, .int] := ⟨completes_running rfl rfl, by decide⟩

theorem witness_RegistersChangeOnlyAsListed :
    completes (.cmp 0 1) (ready []) ∧ completes (.push 0) (withSp 3) ∧ Reg.r0 ≠ .r7 ∧
    completes (.add 0 1) (ready []) ∧ (Instr.add 0 1).operands.head? ≠ some Reg.r1.toByte ∧
    completes (.pop 0) (withSp 2) ∧ (Instr.pop 0).operands.head? ≠ some Reg.r1.toByte ∧ Reg.r1 ≠ .r7 :=
  ⟨completes_running rfl rfl, completes_running rfl rfl, by decide, completes_running rfl rfl, by decide,
    completes_running rfl rfl, by decide, by decide⟩

/-- A step of each kind: an event, a completed instruction, a fault, an error record still none before it
(OutputOnlyGrows, StepsKeepImageExtentAndParameters, UnsupportedAluOperationIsUnreachable,
FaultRecordNamesReasonAddressAndByte). -/
theorem witness_steps :
    (∃ t, step (ready [0x47, 0] [(.r0, 8)]) = .next t ∧ t.out = [.dec 8]) ∧
    (∃ t, step (ready [0x48, 0]) = .next t ∧ t.out = [.chr 0]) ∧
    (∃ t, step (ready [0x00]) = .next t ∧ t.status = .running) ∧
    (∃ t, step (ready [0x01]) = .next t ∧ t.status = .halted .ok) ∧
    (∃ t, step (ready [0xA3, 0, 1]) = .next t ∧ t.status = .halted (.fault .divisionByZero)) ∧
    (ready [0xA3, 0, 1]).err = none :=
  ⟨⟨_, rfl, rfl⟩, ⟨_, rfl, rfl⟩, ⟨_, rfl, rfl⟩, ⟨_, rfl, rfl⟩, ⟨_, rfl, rfl⟩, rfl⟩

theorem witness_FaultingStepCommitsNothing :
    ∃ t, step (ready [0x45, 0] [(.r7, 2)]) = .next t ∧ t.status = .halted (.fault .stackOverflow) :=
  ⟨_, rfl, rfl⟩

theorem witness_PcReaches256OnlySequentially :
    (atEnd [0xA0, 0, 1]).pc.toNat ≤ 255 ∧
    (∃ t, step (atEnd [0xA0, 0, 1]) = .next t ∧ t.pc.toNat = 256) ∧
    ∃ t, step (ready [0x54, 0]) = .next t ∧ t.pc.toNat = 0 := ⟨by decide, ⟨_, rfl, rfl⟩, ⟨_, rfl, rfl⟩⟩

theorem witness_StepKeepsTheInvariant : Inv (ready [0x47, 0] [(.r0, 8)]) ∧
    ∃ t, step (ready [0x47, 0] [(.r0, 8)]) = .next t := ⟨ready_inv, ⟨_, rfl⟩⟩

theorem witness_EveryRunMeetsTheInvariant : ∃ s t,
    (State.resetWith Config.default).load [0x45, 0] = .ok s ∧ Reaches s t ∧ t.pc.toNat = 2 :=
  ⟨ready [0x45, 0], _, rfl, .step (.refl _) rfl, rfl⟩

theorem witness_CanonicalMemoriesAreEqual : Memory.wf [(3, 5), (255, 1)] ∧
    Memory.wf (Memory.write (Memory.write [] 255 1) 3 5) ∧
    ∀ x : Byte, Memory.read [(3, 5), (255, 1)] x =
      Memory.read (Memory.write (Memory.write [] 255 1) 3 5) x := ⟨by decide, by decide, fun _ => rfl⟩

theorem witness_LoadPlacesTheImage :
    256 < ({ Config.default with loadStart := 255 } : Config).loadStart.toNat + [0x45, 0].length ∧
    ({ Config.default with loadStart := 254 } : Config).loadStart.toNat + [0x45, 0].length ≤ 256 ∧
    (0 : Nat) < [0x45, 0].length := by decide

theorem witness_LoadNeedsTheResetState :
    (State.reset.setPc 1) ≠ State.resetWith (State.reset.setPc 1).cfg := by decide

theorem witness_AddThenSubRestores : Reg.r0 ≠ .r7 := by decide

theorem witness_DivAndModRecomposeTheDividend : (ready [] [(.r1, 7)]).readReg .r1 ≠ 0 := by decide

theorem witness_StoredByteIsFetchedNext : (ready [0x84, 0, 1]).fetch
    ((ready [0x84, 0, 1]).readReg .r0).toNat = some 0x84 := by decide

theorem witness_LoadingAgainNeedsANewReset :
    ((State.resetWith Config.default).load [] = .ok (ready []) ∧ Reaches (ready []) (ready [])) ∧
    ∃ s t, (State.resetWith Config.default).load [0x00] = .ok s ∧ Reaches s t ∧ t.pc = 1 :=
  ⟨⟨rfl, .refl _⟩, ready [0x00], _, rfl, .step (.refl _) rfl, rfl⟩

/-- R250, D25: a second load without a reset is turned away, the one of an empty image too. -/
theorem test_second_load : (match State.reset.load [] with
    | .ok s => (match s.load [0x01] with
      | .ok _ => none
      | .error e => some e)
    | .error _ => none) = some .notReset := by decide

end Sys2Proof.Tests
end

section
/-! PROOFS of the statements of 00_scope.md: what no step changes (R5, R27), and which instruction a
step runs (R9, R100, R102). -/

namespace Sys2Proof.Machine

/-! ### What no step changes -/

/-- Settles O43: a step takes a fault, which changes only the run state and the error record, or
completes an instruction. -/
theorem stepsKeepImageExtentAndParameters : Obligations.StepsKeepImageExtentAndParameters := by
  intro s t h
  obtain ⟨-, ⟨f, -, rfl⟩ | ⟨i, -, -, hc⟩⟩ := step_cases h
  · simp
  · exact ⟨hc.imgStart, hc.imgEnd, hc.cfg, hc.loaded⟩

/-! ### The instruction a step runs -/

/-- Bytes that decode with nothing left over: the row of their opcode byte says how many operand bytes
follow it, and the instruction is the row's mnemonic with those bytes, the way `fetchInstr` builds it. -/
theorem decode_eq_ok_nil {bytes : List Byte} {i : Instr} (h : decode bytes = .ok (i, [])) :
    ∃ op operands row, bytes = op :: operands ∧ lookupOpcode op = some row ∧
      operands.length = row.operandCount ∧
      i = row.mnemonic.instr (operands.getD 0 0) (operands.getD 1 0) := by
  cases bytes with
  | nil => cases h
  | cons op operands =>
    obtain ⟨row, a, b, hrow, rfl, hops⟩ := decode_ok h
    obtain ⟨hmem, -⟩ := lookupOpcode_mem hrow
    obtain ⟨-, hle, -⟩ := opcodeTable_row row hmem
    have hoperands : (row.mnemonic.instr a b).operands = operands := by
      rw [operands_instr hmem, hops, List.append_nil]
    refine ⟨op, operands, row, rfl, hrow, by simp [hops, hle], ?_⟩
    simpa [hoperands] using (row.mnemonic.instr a b).eq_instr

/-- Fetching a nonempty list of bytes is fetching its first byte, then the others after it. -/
theorem State.fetchBytes_eq_some_cons {s : State} {addr n : Nat} {v : Byte} {vs : List Byte}
    (h : s.fetchBytes addr n = some (v :: vs)) :
    s.fetch addr = some v ∧ s.fetchBytes (addr + 1) vs.length = some vs := by
  cases n with
  | zero => cases h
  | succ n =>
    unfold State.fetchBytes at h
    split at h
    · rename_i hv hvs
      cases h
      exact ⟨hv, by rwa [(State.fetchBytes_some hvs).1]⟩
    · cases h

/-- The converse of `State.fetchInstr_ok`: bytes at the pc that decode with nothing left over are the
instruction fetched there. -/
theorem State.fetchInstr_eq_ok_of_decode {s : State} {n : Nat} {bytes : List Byte} {i : Instr}
    (hf : s.fetchBytes s.pc.toNat n = some bytes) (hd : decode bytes = .ok (i, [])) :
    s.fetchInstr = .ok i := by
  obtain ⟨op, operands, row, rfl, hrow, hlen, rfl⟩ := decode_eq_ok_nil hd
  obtain ⟨hop, hops⟩ := State.fetchBytes_eq_some_cons hf
  rw [hlen] at hops
  simp only [State.fetchInstr, hop, hrow, hops]

/-- A Running core runs the instruction it fetched (R102). -/
theorem step_eq_exec {s : State} {i : Instr} (hr : s.status = .running) (hi : s.fetchInstr = .ok i) :
    step s = exec i s := by
  simp only [step, hr, hi]

/-- Settles O5: bytes at the pc that decode with nothing left over are what `fetchInstr` answers. -/
theorem stepRunsTheDecodedInstruction : Obligations.StepRunsTheDecodedInstruction :=
  fun _ _ _ _ hr hf hd => step_eq_exec hr (State.fetchInstr_eq_ok_of_decode hf hd)

end Sys2Proof.Machine
end

section
/-! PROOFS of the statements of 10_state.md: which registers a step changes (R20), the flags byte (R25),
the pc (R23), the error record (R28), the output (R29), and the machine invariant, from reset and load on
(R32, R56). -/

/-! ### What an instruction can touch -/

namespace Sys2Proof

/-- Instruction `i` may change register `r`: the one its operand A names where it has a register
result, R7 where it moves the stack pointer, any register for IRET (R107). -/
def Instr.Writes (i : Instr) (r : Reg) : Prop :=
  match i with
  | .nop | .hlt | .prn _ | .pra _ | .st _ _ | .cmp _ _ => False
  | .jmp _ | .jeq _ | .jne _ | .jgt _ | .jlt _ | .jle _ | .jge _ => False
  | .push _ | .call _ | .ret | .int _ => r = .r7
  | .iret => True
  | .pop a => a = r.toByte ∨ r = .r7
  | .inc a | .dec a | .not a | .ldi a _ | .ld a _ => a = r.toByte
  | .add a _ | .sub a _ | .mul a _ | .div a _ | .mod a _ => a = r.toByte
  | .and a _ | .or a _ | .xor a _ | .shl a _ | .shr a _ => a = r.toByte

/-- `i` is one of the instructions whose next pc is never the sequential one (R104, R190). -/
abbrev Instr.NeverSequential (i : Instr) : Prop :=
  i.mnemonic ∈ [.hlt, .call, .ret, .jmp, .int, .iret]

end Sys2Proof

namespace Sys2Proof.Machine

/-- What the outcome of `i` keeps, completed or faulted: the registers it does not write, and the output
unless it is PRN or PRA. -/
structure Touches (i : Instr) (s t : State) : Prop where
  regs : ∀ r, ¬i.Writes r → t.readReg r = s.readReg r
  out : t.out = s.out ∨ i.mnemonic ∈ [.prn, .pra]

theorem Touches.raise {i : Instr} {s : State} (f : FaultName) (byte : Option Byte) :
    Touches i s (s.raise f byte) := ⟨fun _ _ => rfl, .inl rfl⟩

/-- One register write and any move of the pc. -/
theorem Touches.writeReg_setPc {i : Instr} {s : State} {r : Reg} {v : Byte} {p : PcWord}
    (h : i.Writes r) : Touches i s ((s.writeReg r v).setPc p) :=
  ⟨fun _ hq => State.readReg_writeReg_other s v fun hqr => hq (hqr ▸ h), .inl rfl⟩

/-- A push and any move of the pc. -/
theorem Touches.pushed_setPc {i : Instr} {s : State} {e : State → Byte} {p : PcWord}
    (h : i.Writes .r7) : Touches i s ((s.pushed e).setPc p) :=
  ⟨fun q hq => (s.pushed_readReg e q).trans (if_neg fun hq7 : q = .r7 => hq (hq7 ▸ h)), .inl rfl⟩

/-- IRET ends in a jump and emits nothing, or faults. -/
theorem execIret_next_jump {s t : State} (h : execIret s = .next t) :
    (∃ u v, t = State.jump u v ∧ u.out = s.out) ∨
      ∃ f, t = s.raise f (some Mnemonic.iret.opcode) := by
  rcases commit_next.mp h with hk | ⟨f, -, rfl⟩
  · obtain ⟨u, p, q, hu, hp, hq, rfl⟩ := interruptReturn_ok hk
    obtain ⟨-, -, -, -, -, -, -, -, hout, -⟩ := popRegs_ok hu
    obtain ⟨-, rfl⟩ := pop8_ok.mp hp
    obtain ⟨-, rfl⟩ := pop8_ok.mp hq
    exact .inl ⟨_, _, rfl, hout⟩
  · exact .inr ⟨f, rfl⟩

/-- An instruction touches only the registers it writes, and the output only if it is PRN or PRA. -/
theorem exec_touches {i : Instr} {s t : State} (h : exec i s = .next t) : Touches i s t := by
  cases i with
  | nop | hlt => cases h; exact ⟨fun _ _ => rfl, .inl rfl⟩
  | ret =>
    obtain ⟨v, w, rfl⟩ | ⟨f, rfl⟩ := execRet_next h
    · exact .writeReg_setPc rfl
    · exact .raise f _
  | iret =>
    obtain ⟨u, v, rfl, hout⟩ | ⟨f, rfl⟩ := execIret_next_jump h
    · exact ⟨fun _ hq => absurd trivial hq, .inl hout⟩
    · exact .raise f _
  | push a =>
    obtain ⟨e, rfl⟩ | ⟨f, rfl⟩ := execPush_next h
    · exact .pushed_setPc rfl
    · exact .raise f _
  | pop a =>
    obtain ⟨r, rfl, rfl⟩ | ⟨f, rfl⟩ := execPop_next h
    · refine ⟨fun q hq => ?_, .inl (s.popped_out r)⟩
      obtain ⟨hqr, hq7⟩ := not_or.mp hq
      have hqr : q ≠ r := fun e => hqr (e ▸ rfl)
      rw [State.advance_readReg, State.popped_readReg, if_neg hq7, if_neg hqr]
    · exact .raise f _
  | call a =>
    obtain ⟨e, v, rfl⟩ | ⟨f, rfl⟩ := execCall_next h
    · exact .pushed_setPc rfl
    · exact .raise f _
  | int a =>
    obtain ⟨u, v, es, hu, rfl⟩ | ⟨f, rfl⟩ := execInt_next h
    · obtain ⟨-, -, -, -, -, -, -, hout, -, -, hregs⟩ := pushAll_ok hu
      exact ⟨hregs, .inl hout⟩
    · exact .raise f _
  | prn a | pra a =>
    obtain ⟨r, -, hk⟩ | rfl := withReg_next h
    · cases hk; exact ⟨fun _ _ => rfl, .inr (by simp [Instr.mnemonic])⟩
    · exact .raise _ _
  | jmp a =>
    obtain ⟨r, -, hk⟩ | rfl := withReg_next h
    · cases hk; exact ⟨fun _ _ => rfl, .inl rfl⟩
    · exact .raise _ _
  | jeq a | jne a | jgt a | jlt a | jle a | jge a =>
    obtain ⟨p, rfl⟩ | ⟨f, rfl⟩ := jumpIf_next h
    · exact ⟨fun _ _ => rfl, .inl rfl⟩
    · exact .raise f _
  | inc a | dec a | not a =>
    obtain ⟨r, v, ha, rfl⟩ | ⟨f, rfl⟩ := aluUnary_next h
    · exact .writeReg_setPc ha
    · exact .raise f _
  | ldi a imm =>
    obtain ⟨r, ha, hk⟩ | rfl := withReg_next h
    · cases hk; exact .writeReg_setPc ha
    · exact .raise _ _
  | ld a b =>
    obtain ⟨ra, rb, ha, -, hk⟩ | rfl := withRegs_next h
    · cases hk; exact .writeReg_setPc ha
    · exact .raise _ _
  | st a b | cmp a b =>
    obtain ⟨ra, rb, -, -, hk⟩ | rfl := withRegs_next h
    · cases hk; exact ⟨fun _ _ => rfl, .inl rfl⟩
    · exact .raise _ _
  | div a b | mod a b =>
    obtain ⟨r, v, ha, rfl⟩ | ⟨f, rfl⟩ := aluDivide_next h
    · exact .writeReg_setPc ha
    · exact .raise f _
  | add a b | sub a b | mul a b | and a b | or a b | xor a b | shl a b | shr a b =>
    obtain ⟨r, v, ha, rfl⟩ | ⟨f, rfl⟩ := aluBinary_next h
    · exact .writeReg_setPc ha
    · exact .raise f _

/-! ### The pc (R23, R104, R105) -/

/-- The sequential next pc of an instruction that ends at or below 255 does not wrap. -/
theorem State.seq_toNat {s : State} {n : Nat} (h : s.pc.toNat + n ≤ 255) :
    (s.seq n).toNat = s.pc.toNat + n + 1 := by
  simp only [State.seq, BitVec.toNat_ofNat]
  omega

/-- A direct target is a byte. -/
theorem byte_zeroExtend_toNat_le (v : Byte) : (v.zeroExtend 9).toNat ≤ 255 := by
  rw [byte_zeroExtend_toNat]
  exact Nat.le_of_lt_succ v.isLt

/-- Where an instruction that never advances sequentially leaves the pc: at a byte target, or where it
was (HLT, or a fault). -/
theorem exec_pc_of_neverSequential {i : Instr} {s t : State} (hi : i.NeverSequential)
    (h : exec i s = .next t) : t.pc = s.pc ∨ ∃ v : Byte, t.pc = v.zeroExtend 9 := by
  cases i with
  | hlt => cases h; exact .inl rfl
  | ret =>
    obtain ⟨v, w, rfl⟩ | ⟨f, rfl⟩ := execRet_next h
    · exact .inr ⟨w, rfl⟩
    · exact .inl rfl
  | iret =>
    obtain ⟨u, v, rfl, -⟩ | ⟨f, rfl⟩ := execIret_next_jump h
    · exact .inr ⟨v, rfl⟩
    · exact .inl rfl
  | call a =>
    obtain ⟨e, v, rfl⟩ | ⟨f, rfl⟩ := execCall_next h
    · exact .inr ⟨v, rfl⟩
    · exact .inl rfl
  | int a =>
    obtain ⟨u, v, es, -, rfl⟩ | ⟨f, rfl⟩ := execInt_next h
    · exact .inr ⟨v, rfl⟩
    · exact .inl rfl
  | jmp a =>
    obtain ⟨r, -, hk⟩ | rfl := withReg_next h
    · cases hk; exact .inr ⟨_, rfl⟩
    · exact .inl rfl
  | _ => simp [Instr.mnemonic] at hi

/-- The pc after a completed instruction that ends at or below 255: at most 255, or the sequential one. -/
theorem Completed.pc_cases {i : Instr} {s t : State} (hc : Completed i s t)
    (hfit : s.pc.toNat + i.operands.length ≤ 255) :
    t.pc.toNat ≤ 255 ∨ t.pc.toNat = s.pc.toNat + i.operands.length + 1 := by
  rcases hc.pc with h | ⟨v, h⟩ | ⟨-, h⟩ <;> rw [h]
  · exact .inr (State.seq_toNat hfit)
  · exact .inl (byte_zeroExtend_toNat_le v)
  · exact .inl (by omega)

/-- A Running core whose pc is past memory faults without a byte (R101). -/
theorem step_faults_of_pc_gt {s : State} (hr : s.status = .running) (hpc : 255 < s.pc.toNat) :
    FaultsWith .programCounterOutOfBounds none s (step s) := by
  refine ⟨s.raise .programCounterOutOfBounds none, ?_, rfl, rfl⟩
  simp only [step, hr, State.fetchInstr, State.fetch_none_of_gt hpc]

/-! ### The machine invariant -/

/-- Fault entry keeps the invariant. -/
theorem Inv.raise {s : State} (h : Inv s) (f : FaultName) (byte : Option Byte) :
    Inv (s.raise f byte) where
  mem := h.mem
  pc := h.pc
  image := h.image
  running := nofun
  succeeded := nofun
  failed := by rintro g ⟨⟩; exact ⟨_, rfl, rfl, h.pc⟩

/-- A completed instruction that was fetched keeps the invariant. -/
theorem Inv.completed {i : Instr} {s t : State} (h : Inv s) (hr : s.status = .running)
    (hfit : s.pc.toNat + i.operands.length ≤ 255) (hc : Completed i s t) : Inv t where
  mem := hc.mem_wf h.mem
  pc := by rcases hc.pc_cases hfit with hp | hp <;> omega
  image := by rw [hc.imgStart, hc.imgEnd]; exact h.image
  running _ := hc.err.trans (h.running hr)
  succeeded _ := hc.err.trans (h.running hr)
  failed f hf := by rcases hc.status with e | ⟨-, e⟩ <;> simp [hf, hr] at e

/-- Settles O48: a step takes a fault or completes the instruction it fetched, and both keep the
invariant. -/
theorem stepKeepsTheInvariant : Obligations.StepKeepsTheInvariant := by
  intro s t hs h
  obtain ⟨hr, ⟨f, -, rfl⟩ | ⟨i, hi, -, hc⟩⟩ := step_cases h
  · exact hs.raise f _
  · obtain ⟨-, -, hfit⟩ := State.fetchInstr_ok hi
    exact hs.completed hr hfit hc

/-- The reset state meets the invariant. -/
theorem State.resetWith_inv (cfg : Config) : Inv (State.resetWith cfg) where
  mem := State.resetWith_mem_wf cfg
  pc := (byte_zeroExtend_toNat_le cfg.loadStart).trans (by decide)
  image := ⟨le_rfl, cfg.loadStart.isLt.le⟩
  running _ := rfl
  succeeded := nofun
  failed := nofun

/-- Settles O49: memory, extent and record are those of an empty image (`State.resetWith_inv`). -/
theorem resetMeetsTheInvariant : Obligations.ResetMeetsTheInvariant :=
  ⟨State.resetWith_inv, rfl⟩

/-! ### The load (R56) -/

/-- The core after the load of an image into a core reset with parameters `cfg`. -/
def State.afterLoad (cfg : Config) (image : List Byte) : State :=
  { State.resetWith cfg with
    loaded := true
    mem := Memory.writeBytes [] cfg.loadStart.toNat image
    imgEnd := cfg.loadStart.toNat + image.length }

/-- The load from reset, in one equation: rejected if the image does not fit, else taken. -/
theorem State.resetWith_load (cfg : Config) (image : List Byte) :
    (State.resetWith cfg).load image =
      if 256 < cfg.loadStart.toNat + image.length then .error .loadOverflow
      else .ok (State.afterLoad cfg image) := by
  unfold State.load
  exact if_neg fun hne => hne rfl

/-- The loaded core meets the invariant. -/
theorem State.afterLoad_inv {cfg : Config} {image : List Byte}
    (hfit : cfg.loadStart.toNat + image.length ≤ 256) : Inv (State.afterLoad cfg image) :=
  { State.resetWith_inv cfg with
    mem := Memory.writeBytes_wf Memory.wf_nil _ _
    image := ⟨Nat.le_add_right _ _, hfit⟩ }

/-- An image byte is read back from its address. -/
theorem State.afterLoad_readMem_image {cfg : Config} {image : List Byte}
    (hfit : cfg.loadStart.toNat + image.length ≤ 256) {k : Nat} (hk : k < image.length) :
    (State.afterLoad cfg image).readMem (BitVec.ofNat 8 (cfg.loadStart.toNat + k)) = image[k] := by
  have haddr : (BitVec.ofNat 8 (cfg.loadStart.toNat + k)).toNat = cfg.loadStart.toNat + k :=
    Nat.mod_eq_of_lt (by omega)
  rw [State.readMem, State.afterLoad, Memory.read_writeBytes _ _ _ _ hfit, dif_pos (by omega)]
  simp only [haddr, Nat.add_sub_cancel_left]

/-- Outside the image the loaded memory is zero. -/
theorem State.afterLoad_readMem_outside {cfg : Config} {image : List Byte}
    (hfit : cfg.loadStart.toNat + image.length ≤ 256) {x : Byte}
    (hx : ¬(cfg.loadStart.toNat ≤ x.toNat ∧ x.toNat < cfg.loadStart.toNat + image.length)) :
    (State.afterLoad cfg image).readMem x = 0 := by
  rw [State.readMem, State.afterLoad, Memory.read_writeBytes _ _ _ _ hfit, dif_neg (by omega)]
  rfl

/-- Settles O52: `State.resetWith_load` splits at the fit, and the fields of the loaded core are read
off it. -/
theorem loadPlacesTheImage : Obligations.LoadPlacesTheImage := by
  refine ⟨fun cfg image h => ?_, fun cfg image hfit => ?_, rfl, rfl⟩
  · rw [State.resetWith_load, if_pos h]
  · refine ⟨State.afterLoad cfg image, ?_, fun _ => State.afterLoad_readMem_image hfit,
      fun _ => State.afterLoad_readMem_outside hfit, rfl, rfl, byte_zeroExtend_toNat _, rfl,
      fun r => ?_, rfl, rfl, rfl, rfl⟩
    · rw [State.resetWith_load, if_neg (by omega)]
    · cases r <;> rfl

/-- Settles O50, by induction over the run: the invariant (O48), the extent and the parameters (O43)
hold of the loaded core and every step keeps them. -/
theorem everyRunMeetsTheInvariant : Obligations.EveryRunMeetsTheInvariant := by
  intro cfg image s t hload hreach
  obtain ⟨-, hfit, rfl⟩ := State.load_ok hload
  refine hreach.keeps (P := fun u => Inv u ∧ u.imgStart = cfg.loadStart.toNat ∧
    u.imgEnd = cfg.loadStart.toNat + image.length ∧ u.cfg = cfg) ?_
    ⟨State.afterLoad_inv hfit, rfl, rfl, rfl⟩
  rintro u w ⟨hinv, hstart, hend, hcfg⟩ hstep
  obtain ⟨estart, eend, ecfg, -⟩ := stepsKeepImageExtentAndParameters u w hstep
  exact ⟨stepKeepsTheInvariant u w hinv hstep, estart.trans hstart, eend.trans hend, ecfg.trans hcfg⟩

/-! ### Registers, output, error record, pc, flags byte -/

/-- Settles O41: none of the four lists has an instruction that writes the register. -/
theorem registersChangeOnlyAsListed : Obligations.RegistersChangeOnlyAsListed := by
  intro i s t r h _
  have hregs := (exec_touches h).regs r
  refine ⟨fun hi => hregs ?_, fun hi hr => hregs ?_, fun hi hr => hregs ?_, fun hi hr h7 => hregs ?_⟩
  -- `Instr.Writes` against the statement's lists, a finite reading per instruction
  all_goals cases i <;> simp_all [Instr.mnemonic, Instr.operands, Instr.Writes]

/-- Settles O42: an instruction that touches the output was fetched under PRN's or PRA's opcode byte. -/
theorem outputOnlyGrows : Obligations.OutputOnlyGrows := by
  refine ⟨fun s t h => ?_, fun _ => rfl⟩
  obtain ⟨-, ⟨f, -, rfl⟩ | ⟨i, hi, hx, hc⟩⟩ := step_cases h
  · exact .inl rfl
  · obtain ⟨hop, -, -⟩ := State.fetchInstr_ok hi
    rcases hc.out with hout | ⟨ev, hout⟩
    · exact .inl hout
    rcases (exec_touches hx).out with hkeep | hm
    · exact .inl hkeep
    · refine .inr ⟨ev, hout, ?_⟩
      simp only [List.mem_cons, List.not_mem_nil, or_false] at hm
      rcases hm with hm | hm <;> rw [hop, hm]
      · exact .inl rfl
      · exact .inr rfl

/-- Settles O45: a fault enters with the byte fetched at the pc, and a completed instruction neither
touches err nor halts with a fault. -/
theorem faultRecordNamesReasonAddressAndByte : Obligations.FaultRecordNamesReasonAddressAndByte := by
  intro s t herr h
  obtain ⟨hr, ⟨f, -, rfl⟩ | ⟨i, -, -, hc⟩⟩ := step_cases h
  · refine ⟨?_, ?_⟩
    · rintro (hs | hs) <;> cases hs
    · rintro g ⟨⟩; rfl
  · refine ⟨fun _ => hc.err.trans herr, fun f hf => ?_⟩
    rcases hc.status with e | ⟨-, e⟩ <;> simp [hf, hr] at e

/-- Settles O47: only the sequential advance of an instruction that ends at 255 gives 256, and the core
then is Running with nothing to fetch. -/
theorem pcReaches256OnlySequentially : Obligations.PcReaches256OnlySequentially := by
  intro s t hpc h
  obtain ⟨hr, ⟨f, -, rfl⟩ | ⟨i, hi, hx, hc⟩⟩ := step_cases h
  · rw [State.raise_pc]
    exact ⟨by omega, fun h256 => by omega⟩
  obtain ⟨-, -, hfit⟩ := State.fetchInstr_ok hi
  have hcases := hc.pc_cases hfit
  refine ⟨by omega, fun h256 => ?_⟩
  have hseq : ¬i.NeverSequential := fun hm => by
    rcases exec_pc_of_neverSequential hm hx with e | ⟨v, e⟩
    · rw [e] at h256; omega
    · have := byte_zeroExtend_toNat_le v
      rw [e] at h256; omega
  have hrun : t.status = .running := by
    rcases hc.status with e | ⟨rfl, -⟩
    · exact e.trans hr
    · exact absurd (.head _) hseq
  exact ⟨⟨i, hi, by omega, hseq⟩, hrun, step_faults_of_pc_gt hrun (by omega)⟩

/-- The flags byte has nothing above bit 2. -/
theorem Flags.toByte_getLsbD_of_ge (f : Flags) {k : Nat} (hk : 3 ≤ k) : f.toByte.getLsbD k = false := by
  have hlt : f.toByte.toNat < 2 ^ 3 := by
    have he := f.e.toNat_le; have hg := f.g.toNat_le; have hl := f.l.toNat_le
    rw [Flags.toByte_toNat]; omega
  exact Nat.testBit_lt_two_pow (hlt.trans_le (Nat.pow_le_pow_right (by decide) hk))

/-- The three low bits of the flags byte are E, G, L. -/
theorem Flags.toByte_getLsbD (f : Flags) : f.toByte.getLsbD 0 = f.e ∧ f.toByte.getLsbD 1 = f.g ∧
    f.toByte.getLsbD 2 = f.l := by
  rcases f with ⟨_ | _, _ | _, _ | _⟩ <;> decide

/-- Settles O55: the bits are read off the byte, and restoring them rebuilds the flags. -/
theorem flagsByteIsLGE : Obligations.FlagsByteIsLGE := by
  refine ⟨fun f => ?_, fun _ => ⟨rfl, rfl, rfl⟩⟩
  obtain ⟨he, hg, hl⟩ := f.toByte_getLsbD
  exact ⟨he, hg, hl, fun _ => f.toByte_getLsbD_of_ge, by rw [Flags.ofByte, he, hg, hl]⟩

end Sys2Proof.Machine
end

section
/-! PROOFS of the statements of 20_memory.md: which instructions leave memory alone (R50, R107), the
canonical form of memory (R50), a vector slot past memory (R52, log 5), the load outside the reset state
(R56, log 8), and the fetch of a stored byte (R61). -/

namespace Sys2Proof.Machine

/-! ### Canonical memories (R50) -/

/-- A byte that memory reads as another value than `Memory.unlisted` is listed with that value. -/
theorem Memory.mem_of_read_ne {m : Memory} {x : Byte} (h : m.read x ≠ Memory.unlisted) :
    (x.toNat, m.read x) ∈ m := by
  induction m with
  | nil => exact absurd rfl h
  | cons c m ih =>
    unfold Memory.read at h ⊢
    split at h
    · rename_i hc
      rw [if_pos hc, ← hc]
      exact .head m
    · rename_i hc
      rw [if_neg hc]
      exact .tail c (ih h)

/-- With addresses strictly rising, a listed cell reads as its value. -/
theorem Memory.read_of_mem {m : Memory} {x v : Byte} (hm : m.Pairwise fun c d => c.1 < d.1)
    (h : (x.toNat, v) ∈ m) : m.read x = v := by
  induction hm with
  | nil => cases h
  | @cons c m hlt _ ih =>
    unfold Memory.read
    rcases List.mem_cons.mp h with rfl | h
    · exact if_pos rfl
    · rw [if_neg (hlt _ h).ne, ih h]

/-- A canonical memory lists exactly the cells that read as another value than `Memory.unlisted`. -/
theorem Memory.mem_iff_read {m : Memory} (hm : m.wf) (c : Host.Cell) :
    c ∈ m ↔ c.2 ≠ Memory.unlisted ∧ ∃ x : Byte, x.toNat = c.1 ∧ m.read x = c.2 := by
  obtain ⟨k, v⟩ := c
  constructor
  · intro hc
    obtain ⟨hk, hv⟩ := hm.2 _ hc
    have hx : (BitVec.ofNat 8 k).toNat = k := Nat.mod_eq_of_lt hk
    exact ⟨hv, BitVec.ofNat 8 k, hx, Memory.read_of_mem hm.1 (hx.symm ▸ hc)⟩
  · rintro ⟨hv, x, rfl, rfl⟩
    exact Memory.mem_of_read_ne hv

/-- Settles O51: what the two memories list is what they read (`Memory.mem_iff_read`), and a strictly
rising list is determined by its members. -/
theorem canonicalMemoriesAreEqual : Obligations.CanonicalMemoriesAreEqual := by
  intro m m' hm hm' hread
  have hmem : ∀ c, c ∈ m ↔ c ∈ m' := fun c => by
    simp only [Memory.mem_iff_read hm, Memory.mem_iff_read hm', hread]
  have hasymm : Std.Asymm fun c d : Host.Cell => c.1 < d.1 := ⟨fun _ _ => Nat.lt_asymm⟩
  exact hm.1.eq_of_mem_iff hm'.1 hmem

/-! ### Instructions that leave memory alone (R107) -/

/-- An instruction other than ST, PUSH, CALL and INT leaves memory as it was, completed or faulted. -/
theorem exec_mem_eq {i : Instr} {s t : State} (h : exec i s = .next t)
    (hi : i.mnemonic ∉ [.st, .push, .call, .int]) : t.mem = s.mem := by
  cases i with
  | st a b | push a | call a | int a => simp [Instr.mnemonic] at hi
  | nop | hlt => cases h; rfl
  | ret =>
    obtain ⟨v, w, rfl⟩ | ⟨f, rfl⟩ := execRet_next h <;> rfl
  | iret =>
    obtain ⟨hmem, -⟩ | ⟨f, rfl⟩ := execIret_next h
    · exact hmem
    · rfl
  | pop a =>
    obtain ⟨r, -, rfl⟩ | ⟨f, rfl⟩ := execPop_next h
    · exact s.popped_mem r
    · rfl
  | prn a | pra a | jmp a | ldi a imm =>
    obtain ⟨r, -, hk⟩ | rfl := withReg_next h
    · cases hk; rfl
    · rfl
  | jeq a | jne a | jgt a | jlt a | jle a | jge a =>
    obtain ⟨p, rfl⟩ | ⟨f, rfl⟩ := jumpIf_next h <;> rfl
  | inc a | dec a | not a =>
    obtain ⟨r, v, -, rfl⟩ | ⟨f, rfl⟩ := aluUnary_next h <;> rfl
  | ld a b | cmp a b =>
    obtain ⟨ra, rb, -, -, hk⟩ | rfl := withRegs_next h
    · cases hk; rfl
    · rfl
  | div a b | mod a b =>
    obtain ⟨r, v, -, rfl⟩ | ⟨f, rfl⟩ := aluDivide_next h <;> rfl
  | add a b | sub a b | mul a b | and a b | or a b | xor a b | shl a b | shr a b =>
    obtain ⟨r, v, -, rfl⟩ | ⟨f, rfl⟩ := aluBinary_next h <;> rfl

/-- Settles O40: the whole memory stays (`exec_mem_eq`), so each byte reads as before. -/
theorem onlyStPushCallIntWriteMemory : Obligations.OnlyStPushCallIntWriteMemory :=
  fun _ _ _ x h _ hi => congrArg (Memory.read · x) (exec_mem_eq h hi)

/-! ### The fetch of a stored byte (R61) -/

/-- The pc's move past an instruction has no part in a fetch of a given address. -/
@[simp] theorem State.fetch_advance (s : State) (n addr : Nat) :
    (s.advance n).fetch addr = s.fetch addr := rfl

/-- A store leaves the fetch check of every address as it was, and where the check is passed a fetch
gives the byte stored there. -/
theorem State.fetch_writeMem (s : State) (a v : Byte) (addr : Nat) :
    (s.writeMem a v).fetch addr =
      if addr = a.toNat then (s.fetch addr).map fun _ => v else s.fetch addr := by
  by_cases hgt : 255 < addr
  · simp [State.fetch_none_of_gt hgt]
  have haddr : BitVec.ofNat 8 addr = a ↔ addr = a.toNat := by bv_omega
  simp only [State.fetch, if_neg hgt, State.writeMem_cfg, State.writeMem_imgStart,
    State.writeMem_imgEnd, State.readMem_writeMem, haddr]
  split_ifs <;> rfl

/-- ST with two registers stores R[rb] at the address R[ra] and advances past its three bytes (R152). -/
theorem exec_st_toByte (ra rb : Reg) (s : State) : exec (.st ra.toByte rb.toByte) s =
    .next ((s.writeMem (s.readReg ra) (s.readReg rb)).advance 2) :=
  withRegs_toByte .st ra rb s _

/-- Settles O58: a fetch reads the memory ST wrote (`State.fetch_writeMem`). -/
theorem storedByteIsFetchedNext : Obligations.StoredByteIsFetchedNext := by
  rintro ra rb s ⟨v, hv⟩
  refine ⟨_, exec_st_toByte ra rb s, ?_, fun addr hne => ?_⟩
  · rw [State.fetch_advance, State.fetch_writeMem, if_pos rfl, hv, Option.map_some]
  · rw [State.fetch_advance, State.fetch_writeMem, if_neg hne]

/-! ### A vector slot past memory (log 5) -/

/-- A return address in memory is handed on. -/
theorem withReturnAddress_of_le {m : Mnemonic} {s : State} {k} (h : s.pc.toNat + 2 ≤ 255) :
    withReturnAddress m s k = k (BitVec.ofNat 8 (s.pc.toNat + 2)) :=
  if_neg (Nat.not_lt.mpr h)

/-- INT with a legal number and a return address in memory is the interrupt entry, committed or faulted
(R200). -/
theorem exec_int_toByte {ra : Reg} {s : State} (hn : (s.readReg ra).toNat < s.cfg.intVectorCount)
    (hret : s.pc.toNat + 2 ≤ 255) : exec (.int ra.toByte) s =
      commit .int s (interruptEntry (s.readReg ra) (BitVec.ofNat 8 (s.pc.toNat + 2)) s) := by
  rw [exec, execInt, withReg_toByte, if_neg (Nat.not_le.mpr hn), withReturnAddress_of_le hret]

/-- Legal pushes to a vector slot that has no cell: the interrupt entry faults (log 5). -/
theorem interruptEntry_of_slot_gt {n ret : Byte} {s t : State}
    (hpush : pushAll (interruptFrame ret) s = .ok t)
    (hslot : 255 < s.cfg.intVectorBase.toNat + n.toNat) :
    interruptEntry n ret s = .error .programCounterOutOfBounds := by
  obtain ⟨hcfg, -⟩ := pushAll_ok hpush
  have hvec : t.readVector n = none := by
    rw [State.readVector, hcfg]
    exact if_neg (Nat.not_le.mpr hslot)
  simp only [interruptEntry, hpush, hvec]

/-- Settles O38: the ten pushes are legal together (`pushAll_legal`), so the slot's check is reached and
fails. -/
theorem vectorSlotPastMemoryFaults : Obligations.VectorSlotPastMemoryFaults := by
  intro ra s hn hret hlegal hslot
  rw [exec_int_toByte hn hret, interruptEntry_of_slot_gt (pushAll_legal hlegal) hslot]
  exact raiseIn_faults .int _ s

/-! ### The load outside the reset state (log 8) -/

/-- Settles O53: the load compares the whole state with the reset state before anything else. -/
theorem loadNeedsTheResetState : Obligations.LoadNeedsTheResetState :=
  fun _ _ hne => by rw [State.load, if_pos hne]

end Sys2Proof.Machine
end

section
/-! PROOFS of the statements of 30_encoding.md: the round trip of `decode` and `encode` (R70, R73, R76,
R79), the fields of the opcode byte (R71), words written out (R72, R79), and the opcode table and the
fault of a byte outside it (R72, R73, R222). -/

namespace Sys2Proof

/-! ### The round trip (R70, R73, R76, R79) -/

/-- Decoding a byte of the table and as many operand bytes as its row counts: the row's mnemonic with
those bytes, and the bytes after them. -/
theorem decode_of_lookup {op : Byte} {row : OpcodeRow} {operands : List Byte}
    (hrow : lookupOpcode op = some row) (hlen : operands.length = row.operandCount)
    (rest : List Byte) : decode (op :: (operands ++ rest)) =
      .ok (row.mnemonic.instr (operands.getD 0 0) (operands.getD 1 0), rest) := by
  match operands, hlen with
  | [], hlen | [_], hlen | [_, _], hlen => simp [decode, hrow, ← hlen]
  | _ :: _ :: _ :: _, hlen =>
    obtain ⟨-, hle, -⟩ := opcodeTable_row row (lookupOpcode_mem hrow).1
    simp only [List.length_cons] at hlen
    omega

/-- An instruction's bytes decode to it, whatever bytes follow. -/
theorem decode_encode_append (i : Instr) (rest : List Byte) :
    decode (encode i ++ rest) = .ok (i, rest) := by
  obtain ⟨row, hrow, hmnem, -, hcount⟩ := lookupOpcode_instr i
  rw [encode, List.cons_append, decode_of_lookup hrow hcount.symm, hmnem, ← i.eq_instr]

/-- The bytes that decode to an instruction are its encoding and the bytes left over. -/
theorem eq_encode_append_of_decode {bytes rest : List Byte} {i : Instr}
    (h : decode bytes = .ok (i, rest)) : bytes = encode i ++ rest := by
  cases bytes with
  | nil => cases h
  | cons op operands =>
    obtain ⟨row, a, b, hrow, rfl, rfl⟩ := decode_ok h
    obtain ⟨hmem, rfl⟩ := lookupOpcode_mem hrow
    obtain ⟨hopcode, -, -⟩ := opcodeTable_row row hmem
    rw [encode, Mnemonic.instr_mnemonic, hopcode, operands_instr hmem, List.cons_append]

/-- Settles O1: each direction goes through the row the opcode byte is looked up to. -/
theorem decodeAndEncodeAreInverse : Obligations.DecodeAndEncodeAreInverse :=
  ⟨decode_encode_append, fun _ _ _ => eq_encode_append_of_decode⟩

/-! ### The fields of the opcode byte (R71) -/

/-- R71's fields in each row of the table: bits 7:6 the operand count, bit 5 the ALU mnemonics, bit 4
the mnemonics that set the pc. -/
theorem opcodeTable_fields : ∀ row ∈ opcodeTable, row.opcode.toNat / 64 = row.operandCount ∧
    (row.opcode.getLsbD 5 = true ↔ row.mnemonic ∈ [.add, .sub, .mul, .div, .mod, .and, .or,
      .xor, .not, .shl, .shr, .inc, .dec, .cmp]) ∧
    (row.opcode.getLsbD 4 = true ↔ row.mnemonic ∈ [.call, .ret, .jmp, .jeq, .jne, .jgt, .jlt,
      .jle, .jge, .int, .iret]) := by decide

/-- Settles O3: the fields of the instruction's row of the table. -/
theorem opcodeFieldsGiveCountAluAndPc : Obligations.OpcodeFieldsGiveCountAluAndPc := by
  intro i
  obtain ⟨row, hrow, hmnem, hopcode, hcount⟩ := lookupOpcode_instr i
  rw [← hopcode, ← hcount, ← hmnem]
  exact opcodeTable_fields row (lookupOpcode_mem hrow).1

/-! ### Words written out (R72, R79) -/

/-- Settles O4: each word is the encoding of its instruction, and the first holds two more. -/
theorem writtenOutWordsDecode : Obligations.WrittenOutWordsDecode :=
  ⟨decode_encode_append (.ldi 0 8) _, decode_encode_append (.prn 0) _, decode_encode_append .hlt _,
    decode_encode_append (.add 0 1) _, decode_encode_append (.not 3) _,
    decode_encode_append (.push 0) _, decode_encode_append (.call 1) _,
    decode_encode_append (.jeq 3) _, decode_encode_append (.int 0) _, decode_encode_append .iret _,
    decode_encode_append (.st 0 1) _⟩

/-! ### The opcode table (R72, R73) -/

/-- A byte is looked up to the row of the table that has it as its opcode byte, and to nothing else. -/
theorem lookupOpcode_eq_some_iff {op : Byte} {row : OpcodeRow} :
    lookupOpcode op = some row ↔ row.opcode = op ∧ row ∈ opcodeTable := by
  constructor
  · exact fun h => (lookupOpcode_mem h).symm
  · rintro ⟨rfl, hmem⟩
    obtain ⟨-, -, hrow⟩ := opcodeTable_row row hmem
    exact hrow

/-- A row as R72's table writes it: opcode byte, mnemonic, operand count, is-ALU. -/
def OpcodeRow.entry (row : OpcodeRow) : Byte × Mnemonic × Nat × Bool :=
  (row.opcode, row.mnemonic, row.operandCount, row.isAlu)

theorem OpcodeRow.entry_injective : Function.Injective OpcodeRow.entry := by
  rintro ⟨m, op, n, alu⟩ ⟨m', op', n', alu'⟩ h
  cases h
  rfl

end Sys2Proof

namespace Sys2Proof.Machine

/-! ### The opcode table and the step (R72, R73, R222) -/

/-- The decoder's table is R72's, row for row. -/
theorem opcodeMap_eq_map_entry : opcodeMap = opcodeTable.map OpcodeRow.entry := rfl

/-- A byte that R72's table does not list is looked up to no row. -/
theorem lookupOpcode_eq_none_of_opcodeMap {op : Byte} (h : ∀ e ∈ opcodeMap, e.1 ≠ op) :
    lookupOpcode op = none := by
  refine Option.eq_none_iff_forall_ne_some.mpr fun row hrow => ?_
  obtain ⟨hopcode, hmem⟩ := lookupOpcode_eq_some_iff.mp hrow
  exact h row.entry (opcodeMap_eq_map_entry ▸ List.mem_map_of_mem hmem) hopcode

/-- A Running core takes the fault its fetch and decode raised (R221). -/
theorem step_faults_of_fetchInstr_error {s : State} {f : FaultName} {byte : Option Byte}
    (hr : s.status = .running) (he : s.fetchInstr = .error (f, byte)) :
    FaultsWith f byte s (step s) := by
  refine ⟨s.raise f byte, ?_, rfl, rfl⟩
  simp only [step, hr, he]

/-- A fetched opcode byte with no row is the fault UnknownOpcode, with that byte (R222). -/
theorem State.fetchInstr_of_lookup_none {s : State} {op : Byte}
    (hop : s.fetch s.pc.toNat = some op) (hnone : lookupOpcode op = none) :
    s.fetchInstr = .error (.unknownOpcode, some op) := by
  simp only [State.fetchInstr, hop, hnone]

/-- Settles O2: the rows found are those of the table (`lookupOpcode_eq_some_iff`), which is R72's
(`opcodeMap_eq_map_entry`); a byte found in no row faults at the table lookup. -/
theorem decodingAcceptsExactlyTheTable : Obligations.DecodingAcceptsExactlyTheTable := by
  constructor
  · intro op row
    rw [lookupOpcode_eq_some_iff]
    refine and_congr_right ?_
    rintro rfl
    rw [opcodeMap_eq_map_entry]
    exact (List.mem_map_of_injective OpcodeRow.entry_injective).symm
  · intro s op hr hop hunlisted
    exact step_faults_of_fetchInstr_error hr
      (State.fetchInstr_of_lookup_none hop (lookupOpcode_eq_none_of_opcodeMap hunlisted))

end Sys2Proof.Machine
end

section
/-! PROOFS of the statements of 40_engine.md: the step of a Running core (R100, R109), the fetch check and
its faults (R101), the check of register operand bytes (R103), and NOP (R106). -/

namespace Sys2Proof.Machine

/-! ### The step exists exactly while Running (R100, R109) -/

/-- Every instruction at every state answers a next state, a fault being one (R221). -/
theorem exec_exists_next (i : Instr) (s : State) : ∃ t, exec i s = .next t := by
  obtain ⟨f, -, -, h⟩ | ⟨t, h, -⟩ := exec_faultOrCompleted i s
  · exact ⟨_, h⟩
  · exact ⟨t, h⟩

theorem step_of_halted {s : State} {reason : HaltReason} (h : s.status = .halted reason) :
    step s = .fault .coreHalted := by
  simp only [step, h]

/-- A Running core has a step to a next state: a fetch or decode fault, or the instruction's meaning. -/
theorem step_exists_next_of_running {s : State} (hr : s.status = .running) : ∃ t, step s = .next t := by
  cases hi : s.fetchInstr with
  | error e =>
    obtain ⟨t, ht, -, -⟩ := step_faults_of_fetchInstr_error hr hi
    exact ⟨t, ht⟩
  | ok i =>
    rw [step_eq_exec hr hi]
    exact exec_exists_next i s

/-- Settles O6: a step to a next state inverts to a Running core (`step_next`), and a Running core has
one. -/
theorem stepExistsExactlyWhileRunning : Obligations.StepExistsExactlyWhileRunning :=
  ⟨fun _ => ⟨fun ⟨_, ht⟩ => (step_next ht).1, step_exists_next_of_running⟩, fun _ _ => step_of_halted⟩

/-! ### The fetch check (R101) -/

/-- The fetch bound is `memory` exactly if it is not `image`. -/
theorem fetchBound_eq_memory_iff (b : FetchBound) : b = .memory ↔ b ≠ .image := by
  cases b <;> decide

/-- The fetch in one equation: the byte of memory where both checks of R101 hold, else none. -/
theorem State.fetch_eq (s : State) (addr : Nat) : s.fetch addr =
    if addr ≤ 255 ∧ (s.cfg.fetchBound = .memory ∨ (s.imgStart ≤ addr ∧ addr < s.imgEnd)) then
      some (s.readMem (BitVec.ofNat 8 addr)) else none := by
  unfold State.fetch
  by_cases hgt : 255 < addr
  · rw [if_pos hgt, if_neg fun h => absurd h.1 (Nat.not_le.mpr hgt)]
  · rw [if_neg hgt]
    refine (ite_not _ _ _).symm.trans (if_congr ?_ rfl rfl)
    rw [fetchBound_eq_memory_iff, and_iff_right (Nat.not_lt.mp hgt), not_and_not_right,
      imp_iff_not_or]

/-- A failed opcode fetch faults without a byte (R28, R101). -/
theorem State.fetchInstr_of_opcode_none {s : State} (h : s.fetch s.pc.toNat = none) :
    s.fetchInstr = .error (.programCounterOutOfBounds, none) := by
  simp only [State.fetchInstr, h]

/-- One failed fetch fails the whole run of bytes it stands in. -/
theorem State.fetchBytes_of_fetch_none {s : State} {addr n k : Nat} (hk : k < n)
    (h : s.fetch (addr + k) = none) : s.fetchBytes addr n = none := by
  refine Option.eq_none_iff_forall_ne_some.mpr fun vs hvs => ?_
  obtain ⟨hlen, hfetch⟩ := State.fetchBytes_some hvs
  have hbyte := hfetch k (by omega)
  rw [h] at hbyte
  cases hbyte

/-- A failed fetch of the operand byte at `pc + k` faults with the opcode byte (R28, R101). -/
theorem State.fetchInstr_of_operand_none {s : State} {op : Byte} {row : OpcodeRow} {k : Nat}
    (hop : s.fetch s.pc.toNat = some op) (hrow : lookupOpcode op = some row)
    (hk : 1 ≤ k) (hcount : k ≤ row.operandCount) (h : s.fetch (s.pc.toNat + k) = none) :
    s.fetchInstr = .error (.programCounterOutOfBounds, some op) := by
  obtain ⟨j, rfl⟩ := Nat.exists_eq_add_of_le hk
  have hbytes : s.fetchBytes (s.pc.toNat + 1) row.operandCount = none :=
    State.fetchBytes_of_fetch_none (k := j) (by omega) (by rwa [Nat.add_assoc])
  simp only [State.fetchInstr, hop, hrow, hbytes]

/-- Settles O7: the check is `State.fetch_eq`, and a step takes the fault of the failed fetch. -/
theorem fetchIsBoundedByImageAndMemory : Obligations.FetchIsBoundedByImageAndMemory :=
  ⟨State.fetch_eq,
    fun _ hr h => step_faults_of_fetchInstr_error hr (State.fetchInstr_of_opcode_none h),
    fun _ _ _ _ hr hop hrow hk hcount h =>
      step_faults_of_fetchInstr_error hr (State.fetchInstr_of_operand_none hop hrow hk hcount h)⟩

/-! ### The check of register operand bytes (R103, R226) -/

/-- The bytes up to 7 are the registers' operand bytes. -/
theorem byte_le_seven_iff {b : Byte} : b.toNat ≤ 7 ↔ ∃ r : Reg, b = r.toByte :=
  decide_eq_true_iff.symm.trans isRegisterByte_iff

/-- A register operand byte above 7 is the fault, whatever the instruction would do. -/
theorem withReg_of_gt {m : Mnemonic} {a : Byte} {s : State} {k} (h : 7 < a.toNat) :
    withReg m a s k = raiseIn m .invalidRegisterIndex s := by
  obtain ⟨r, rfl, -⟩ | ⟨-, e⟩ := withReg_cases m a s k
  · exact absurd r.toByte_toNat_le (Nat.not_le.mpr h)
  · exact e

/-- One of two register operand bytes above 7 is the fault, whatever the instruction would do. -/
theorem withRegs_of_gt {m : Mnemonic} {a b : Byte} {s : State} {k} (h : 7 < a.toNat ∨ 7 < b.toNat) :
    withRegs m a b s k = raiseIn m .invalidRegisterIndex s := by
  obtain ⟨ra, rb, rfl, rfl, -⟩ | ⟨-, e⟩ := withRegs_cases m a b s k
  · have := ra.toByte_toNat_le
    have := rb.toByte_toNat_le
    omega
  · exact e

/-- The register check comes first in every instruction's meaning: no effect, no other fault (R230). -/
theorem exec_of_register_byte_gt {i : Instr} {s : State} {b : Byte} (hb : b ∈ registerOperands i)
    (h : 7 < b.toNat) : exec i s = raiseIn i.mnemonic .invalidRegisterIndex s := by
  cases i with
  | nop | hlt | ret | iret => cases hb
  | push a | pop a | prn a | pra a | call a | int a | jmp a | jeq a | jne a | jgt a | jlt a | jle a
  | jge a | inc a | dec a | not a | ldi a imm =>
    obtain rfl := List.mem_singleton.mp hb
    exact withReg_of_gt h
  | ld a c | st a c | add a c | sub a c | mul a c | div a c | mod a c | cmp a c | and a c | or a c
  | xor a c | shl a c | shr a c =>
    obtain rfl | rfl := List.mem_pair.mp hb
    · exact withRegs_of_gt (.inl h)
    · exact withRegs_of_gt (.inr h)

/-- The outcome is no next state Halted with InvalidRegisterIndex. -/
def NoRegisterFault (o : Result) : Prop :=
  ∀ t, o = .next t → t.status ≠ .halted (.fault .invalidRegisterIndex)

theorem NoRegisterFault.raiseIn {m : Mnemonic} {f : FaultName} {s : State}
    (h : f ≠ .invalidRegisterIndex := by decide) : NoRegisterFault (raiseIn m f s) := by
  rintro t ⟨⟩ ht
  cases ht
  exact h rfl

theorem NoRegisterFault.withReg {m : Mnemonic} {a : Byte} {s : State} {k} (ha : a.toNat ≤ 7)
    (h : ∀ r, NoRegisterFault (k r)) : NoRegisterFault (withReg m a s k) := by
  obtain ⟨r, rfl⟩ := byte_le_seven_iff.mp ha
  rw [withReg_toByte]
  exact h r

theorem NoRegisterFault.withRegs {m : Mnemonic} {a b : Byte} {s : State} {k} (ha : a.toNat ≤ 7)
    (hb : b.toNat ≤ 7) (h : ∀ ra rb, NoRegisterFault (k ra rb)) :
    NoRegisterFault (withRegs m a b s k) :=
  .withReg ha fun ra => .withReg hb (h ra)

theorem NoRegisterFault.withReturnAddress {m : Mnemonic} {s : State} {k}
    (h : ∀ ret, NoRegisterFault (k ret)) : NoRegisterFault (withReturnAddress m s k) := by
  obtain ⟨-, e⟩ | ⟨-, e⟩ := withReturnAddress_cases m s k <;> rw [e]
  · exact h _
  · exact .raiseIn

section
variable {s : State} (hr : s.status = .running)
include hr

/-- A next state with the run state of a Running core. -/
theorem NoRegisterFault.next {t : State} (h : t.status = s.status) : NoRegisterFault (.next t) := by
  rintro u ⟨⟩
  rw [h, hr]
  nofun

theorem NoRegisterFault.commit {m : Mnemonic} {r : Except FaultName State}
    (hok : ∀ t, r = .ok t → t.status = s.status)
    (herr : ∀ f, r = .error f → f ≠ .invalidRegisterIndex) : NoRegisterFault (commit m s r) := by
  cases r with
  | ok t => exact .next hr (hok t rfl)
  | error f => exact .raiseIn (herr f rfl)

/-- A push, then anything that leaves the run state. -/
theorem NoRegisterFault.commit_push8 {m : Mnemonic} {e : State → Byte} {g : State → State}
    (hg : ∀ t, (g t).status = t.status) : NoRegisterFault (Machine.commit m s ((push8 e s).map g)) := by
  rw [push8_eq]
  split
  · exact .next hr (hg _)
  · exact .raiseIn

theorem execPop_noRegisterFault {a : Byte} (ha : a.toNat ≤ 7) : NoRegisterFault (execPop a s) :=
  .withReg ha fun ra => by
    rw [popReg_eq]
    split
    · exact .next hr (s.popped_status ra)
    · exact .raiseIn

theorem execRet_noRegisterFault : NoRegisterFault (execRet s) := by
  rw [execRet, pop8_eq]
  split
  · exact .next hr rfl
  · exact .raiseIn

theorem execInt_noRegisterFault {a : Byte} (ha : a.toNat ≤ 7) : NoRegisterFault (execInt a s) := by
  refine .withReg ha fun ra => ?_
  split
  · exact .raiseIn
  refine .withReturnAddress fun ret => .commit hr (fun t h => ?_) fun f h => ?_
  · obtain ⟨u, v, hu, -, rfl⟩ := interruptEntry_ok h
    obtain ⟨-, -, -, hstatus, -⟩ := pushAll_ok hu
    exact hstatus
  · obtain rfl | ⟨rfl, -⟩ := interruptEntry_error h <;> decide

theorem execIret_noRegisterFault : NoRegisterFault (execIret s) := by
  refine .commit hr (fun t h => ?_) fun f h => ?_
  · obtain ⟨u, p, q, hu, hp, hq, rfl⟩ := interruptReturn_ok h
    obtain ⟨-, -, -, hstatus, -⟩ := popRegs_ok hu
    obtain ⟨-, rfl⟩ := pop8_ok.mp hp
    obtain ⟨-, rfl⟩ := pop8_ok.mp hq
    exact hstatus
  · rw [interruptReturn_error h]
    decide

theorem jumpIf_noRegisterFault {m : Mnemonic} {c : Flags → Bool} {a : Byte} (ha : a.toNat ≤ 7) :
    NoRegisterFault (jumpIf m c a s) :=
  .withReg ha fun _ => .next hr (by split <;> rfl)

theorem aluDivide_noRegisterFault {m : Mnemonic} {f : Byte → Byte → Byte} {a b : Byte}
    (ha : a.toNat ≤ 7) (hb : b.toNat ≤ 7) : NoRegisterFault (aluDivide m f a b s) :=
  .withRegs ha hb fun _ _ => by
    split
    · exact .raiseIn
    · exact .next hr rfl

/-- With every register operand byte at most 7, a Running core takes no InvalidRegisterIndex. -/
theorem exec_noRegisterFault {i : Instr} (h : ∀ b ∈ registerOperands i, b.toNat ≤ 7) :
    NoRegisterFault (exec i s) := by
  cases i with
  | nop => exact .next hr rfl
  | hlt => rintro t ⟨⟩; nofun
  | ret => exact execRet_noRegisterFault hr
  | iret => exact execIret_noRegisterFault hr
  | push a => exact .withReg (h a (.head _)) fun _ => .commit_push8 hr fun _ => rfl
  | call a =>
    exact .withReg (h a (.head _)) fun _ => .withReturnAddress fun _ => .commit_push8 hr fun _ => rfl
  | pop a => exact execPop_noRegisterFault hr (h a (.head _))
  | int a => exact execInt_noRegisterFault hr (h a (.head _))
  | prn a | pra a | jmp a | inc a | dec a | not a | ldi a imm =>
    exact .withReg (h a (.head _)) fun _ => .next hr rfl
  | jeq a | jne a | jgt a | jlt a | jle a | jge a => exact jumpIf_noRegisterFault hr (h a (.head _))
  | div a b | mod a b =>
    exact aluDivide_noRegisterFault hr (h a (.head _)) (h b (.tail _ (.head _)))
  | ld a b | st a b | add a b | sub a b | mul a b | cmp a b | and a b | or a b | xor a b | shl a b
  | shr a b =>
    exact .withRegs (h a (.head _)) (h b (.tail _ (.head _))) fun _ _ => .next hr rfl

end

/-- Settles O8: the register check comes before everything else (`exec_of_register_byte_gt`), and where
it is passed nothing raises InvalidRegisterIndex (`exec_noRegisterFault`). -/
theorem registerOperandAboveSevenFaults : Obligations.RegisterOperandAboveSevenFaults := by
  refine ⟨fun i s ⟨b, hb, h⟩ => ?_, fun i s t h ht hr => exec_noRegisterFault hr h t ht,
    fun _ => byte_le_seven_iff⟩
  rw [exec_of_register_byte_gt hb h]
  exact raiseIn_faults i.mnemonic _ s

/-! ### NOP (R106) -/

/-- A move of the pc changes nothing else. -/
theorem Frame.setPc (s : State) (p : PcWord) : Frame [] [] s (s.setPc p) :=
  ⟨fun _ _ => rfl, fun _ _ => rfl, rfl, rfl, ⟨rfl, rfl, rfl, rfl, rfl, rfl⟩⟩

/-- NOP advances past its one byte. -/
theorem exec_nop (s : State) : exec .nop s = .next (s.advance 0) := rfl

/-- Settles O34: the advance is a move of the pc (`Frame.setPc`), and from 255 it leaves a Running core
with its pc past memory. -/
theorem nopOnlyAdvancesThePc : Obligations.NopOnlyAdvancesThePc := by
  refine ⟨⟨rfl, fun s => ⟨_, exec_nop s, rfl, .setPc s _⟩⟩, fun s hr hpc => ?_⟩
  have h256 : (s.advance 0).pc.toNat = 256 := by
    rw [State.advance_pc, State.seq_toNat (by omega), hpc]
  exact ⟨_, exec_nop s, h256, step_faults_of_pc_gt hr (by omega)⟩

end Sys2Proof.Machine
end

section
/-! PROOFS of the statements of 41_alu.md: what each ALU instruction computes (R120-R133), the laws that
tie their results together (R138), and which instructions write the flags (R135). -/

namespace Sys2Proof.Machine

/-! ### The computations (R120-R132)

The integer results are read off `trunc8`, which is the value modulo 256 (R7, R134). -/

theorem trunc8_toNat (v : Int) : ((trunc8 v).toNat : Int) = v % 256 := by
  rw [trunc8, BitVec.toNat_ofInt]
  omega

theorem aluAdd_toNat (x y : Byte) : (aluAdd x y).toNat = (x.toNat + y.toNat) % 256 := by
  exact_mod_cast trunc8_toNat (x.toNat + y.toNat)

theorem aluSub_toNat (x y : Byte) : ((aluSub x y).toNat : Int) = (x.toNat - y.toNat : Int) % 256 :=
  trunc8_toNat _

theorem aluMul_toNat (x y : Byte) : (aluMul x y).toNat = (x.toNat * y.toNat) % 256 := by
  exact_mod_cast trunc8_toNat (x.toNat * y.toNat)

/-- The quotient of a byte fits in a byte. -/
theorem aluDiv_toNat (x y : Byte) : (aluDiv x y).toNat = x.toNat / y.toNat :=
  Nat.mod_eq_of_lt ((Nat.div_le_self _ _).trans_lt x.isLt)

/-- The remainder of a byte fits in a byte. -/
theorem aluMod_toNat (x y : Byte) : (aluMod x y).toNat = x.toNat % y.toNat := by
  have hfit : x.toNat % y.toNat < 2 ^ 8 := (Nat.mod_le _ _).trans_lt x.isLt
  rw [aluMod, ← Int.emod_def, ← Int.natCast_mod, trunc8_natCast, BitVec.toNat_ofNat,
    Nat.mod_eq_of_lt hfit]

theorem aluShl_toNat (x y : Byte) : (aluShl x y).toNat = (x.toNat * 2 ^ y.toNat) % 256 := by
  exact_mod_cast trunc8_toNat (x.toNat * 2 ^ y.toNat)

theorem aluShr_toNat (x y : Byte) : (aluShr x y).toNat = x.toNat / 2 ^ y.toNat :=
  Nat.mod_eq_of_lt ((Nat.div_le_self _ _).trans_lt x.isLt)

/-- From a count of 8 on, SHL's product is a multiple of 256. -/
theorem aluShl_of_ge (x : Byte) {y : Byte} (h : 8 ≤ y.toNat) : aluShl x y = 0 := by
  have hdvd : 2 ^ 8 ∣ x.toNat * 2 ^ y.toNat := Dvd.dvd.mul_left (Nat.pow_dvd_pow 2 h) _
  exact BitVec.eq_of_toNat_eq ((aluShl_toNat x y).trans (Nat.mod_eq_zero_of_dvd hdvd))

/-- From a count of 8 on, SHR divides a byte by more than it can be. -/
theorem aluShr_of_ge (x : Byte) {y : Byte} (h : 8 ≤ y.toNat) : aluShr x y = 0 := by
  have hlt : x.toNat < 2 ^ y.toNat := x.isLt.trans_le (Nat.pow_le_pow_right (by decide) h)
  exact BitVec.eq_of_toNat_eq ((aluShr_toNat x y).trans (Nat.div_eq_of_lt hlt))

theorem aluNot_toNat (x : Byte) : (aluNot x).toNat = 255 - x.toNat := by
  have hval : ((aluNot x).toNat : Int) = (255 - x.toNat) % 256 := trunc8_toNat _
  have := x.isLt
  omega

theorem aluInc_toNat (x : Byte) : (aluInc x).toNat = (x.toNat + 1) % 256 := by
  exact_mod_cast trunc8_toNat (x.toNat + 1)

theorem aluDec_toNat (x : Byte) : ((aluDec x).toNat : Int) = (x.toNat - 1 : Int) % 256 :=
  trunc8_toNat _

/-- SUB takes back what ADD added (R138). -/
theorem aluSub_aluAdd (x y : Byte) : aluSub (aluAdd x y) y = x := by
  have hadd := aluAdd_toNat x y
  have hsub := aluSub_toNat (aluAdd x y) y
  refine BitVec.eq_of_toNat_eq ?_
  have := x.isLt
  omega

/-! ### The shapes: what an ALU instruction with register operands does -/

/-- One register written and the pc moved: all else stays. -/
theorem Frame.writeReg_advance (s : State) (r : Reg) (v : Byte) (n : Nat) :
    Frame [r] [] s ((s.writeReg r v).advance n) where
  regs _ hq := State.readReg_writeReg_other s v (List.ne_of_not_mem_cons hq)
  mem _ _ := rfl
  flags := rfl
  out := rfl
  run := ⟨rfl, rfl, rfl, rfl, rfl, rfl⟩

/-- `OP ra, rb` computes on both registers and writes the first. -/
theorem aluBinary_completes (m : Mnemonic) (f : Byte → Byte → Byte) (ra rb : Reg) (s : State) :
    ∃ t, aluBinary m f ra.toByte rb.toByte s = .next t ∧
      t.readReg ra = f (s.readReg ra) (s.readReg rb) ∧
      t.pc = BitVec.ofNat 9 (s.pc.toNat + 3) ∧ Frame [ra] [] s t :=
  ⟨_, withRegs_toByte m ra rb s _, State.readReg_writeReg_same s ra _, rfl, .writeReg_advance s ra _ 2⟩

/-- `OP ra` computes on its register and writes it. -/
theorem aluUnary_completes (m : Mnemonic) (f : Byte → Byte) (ra : Reg) (s : State) :
    ∃ t, aluUnary m f ra.toByte s = .next t ∧ t.readReg ra = f (s.readReg ra) ∧
      t.pc = BitVec.ofNat 9 (s.pc.toNat + 2) ∧ Frame [ra] [] s t :=
  ⟨_, withReg_toByte m ra s _, State.readReg_writeReg_same s ra _, rfl, .writeReg_advance s ra _ 1⟩

/-- DIV and MOD are of the binary shape where the divisor is not 0 (R224). -/
theorem aluDivide_eq_aluBinary {m : Mnemonic} {f : Byte → Byte → Byte} {ra rb : Reg} {s : State}
    (h : s.readReg rb ≠ 0) :
    aluDivide m f ra.toByte rb.toByte s = aluBinary m f ra.toByte rb.toByte s := by
  rw [aluDivide, aluBinary, withRegs_toByte, withRegs_toByte, if_neg h]

/-- DIV and MOD fault where the divisor is 0 (R224). -/
theorem aluDivide_faults (m : Mnemonic) (f : Byte → Byte → Byte) (ra : Reg) {rb : Reg} {s : State}
    (h : s.readReg rb = 0) :
    FaultsWith .divisionByZero (some m.opcode) s (aluDivide m f ra.toByte rb.toByte s) := by
  rw [aluDivide, withRegs_toByte, if_pos h]
  exact raiseIn_faults m _ s

/-! ### Arithmetic (R120-R124) -/

/-- Settles O9: the binary shape (`aluBinary_completes`) with the sum. -/
theorem addWritesTheWrappedSum : Obligations.AddWritesTheWrappedSum := by
  intro ra rb s
  obtain ⟨t, ht, hval, hpc, hframe⟩ := aluBinary_completes .add aluAdd ra rb s
  exact ⟨rfl, t, ht, hval ▸ aluAdd_toNat _ _, hpc, hframe⟩

/-- Settles O10: the binary shape with the difference. -/
theorem subWritesTheWrappedDifference : Obligations.SubWritesTheWrappedDifference := by
  intro ra rb s
  obtain ⟨t, ht, hval, hpc, hframe⟩ := aluBinary_completes .sub aluSub ra rb s
  exact ⟨rfl, t, ht, hval ▸ aluSub_toNat _ _, hpc, hframe⟩

/-- Settles O11: the binary shape with the product. -/
theorem mulWritesTheLowByteOfTheProduct : Obligations.MulWritesTheLowByteOfTheProduct := by
  intro ra rb s
  obtain ⟨t, ht, hval, hpc, hframe⟩ := aluBinary_completes .mul aluMul ra rb s
  exact ⟨rfl, t, ht, hval ▸ aluMul_toNat _ _, hpc, hframe⟩

/-- Settles O12: the divisor decides between the quotient and the fault. -/
theorem divWritesTheQuotientOrFaults : Obligations.DivWritesTheQuotientOrFaults := by
  refine fun ra rb s => ⟨rfl, fun h => ?_, aluDivide_faults .div aluDiv ra⟩
  obtain ⟨t, ht, hval, hpc, hframe⟩ := aluBinary_completes .div aluDiv ra rb s
  exact ⟨t, (aluDivide_eq_aluBinary h).trans ht, hval ▸ aluDiv_toNat _ _, hpc, hframe⟩

/-- Settles O13: the divisor decides between the remainder and the fault. -/
theorem modWritesTheRemainderOrFaults : Obligations.ModWritesTheRemainderOrFaults := by
  refine fun ra rb s => ⟨rfl, fun h => ?_, aluDivide_faults .mod aluMod ra⟩
  obtain ⟨t, ht, hval, hpc, hframe⟩ := aluBinary_completes .mod aluMod ra rb s
  refine ⟨t, (aluDivide_eq_aluBinary h).trans ht, ?_, hpc, hframe⟩
  rw [hval, aluMod_toNat, Int.natCast_mod, Int.emod_def]

/-! ### Bits and shifts (R125-R129) -/

/-- Settles O14: the binary shape with the three bitwise operations, whose bits `BitVec` gives. -/
theorem andOrXorWorkBitByBit : Obligations.AndOrXorWorkBitByBit := by
  intro ra rb s
  refine ⟨rfl, ?_, rfl, ?_, rfl, ?_⟩
  · obtain ⟨t, ht, hval, hpc, hframe⟩ := aluBinary_completes .and aluAnd ra rb s
    exact ⟨t, ht, fun _ _ => hval ▸ BitVec.getLsbD_and, hpc, hframe⟩
  · obtain ⟨t, ht, hval, hpc, hframe⟩ := aluBinary_completes .or aluOr ra rb s
    exact ⟨t, ht, fun _ _ => hval ▸ BitVec.getLsbD_or, hpc, hframe⟩
  · obtain ⟨t, ht, hval, hpc, hframe⟩ := aluBinary_completes .xor aluXor ra rb s
    exact ⟨t, ht, fun _ _ => hval ▸ BitVec.getLsbD_xor, hpc, hframe⟩

/-- Settles O15: the binary shape with the two shifts, whose formulas give 0 from a count of 8 on
(`aluShl_of_ge`, `aluShr_of_ge`). -/
theorem shiftsUseTheWholeCount : Obligations.ShiftsUseTheWholeCount := by
  intro ra rb s
  refine ⟨rfl, ?_, rfl, ?_⟩
  · obtain ⟨t, ht, hval, hpc, hframe⟩ := aluBinary_completes .shl aluShl ra rb s
    exact ⟨t, ht, hval ▸ aluShl_toNat _ _, fun h => hval.trans (aluShl_of_ge _ h), hpc, hframe⟩
  · obtain ⟨t, ht, hval, hpc, hframe⟩ := aluBinary_completes .shr aluShr ra rb s
    exact ⟨t, ht, hval ▸ aluShr_toNat _ _, fun h => hval.trans (aluShr_of_ge _ h), hpc, hframe⟩

/-! ### One register (R130-R132) -/

/-- Settles O16: the unary shape (`aluUnary_completes`) with the three computations. -/
theorem notIncDecChangeOneRegister : Obligations.NotIncDecChangeOneRegister := by
  intro ra s
  refine ⟨rfl, ?_, rfl, ?_, rfl, ?_⟩
  · obtain ⟨t, ht, hval, hpc, hframe⟩ := aluUnary_completes .not aluNot ra s
    exact ⟨t, ht, hval ▸ aluNot_toNat _, hpc, hframe⟩
  · obtain ⟨t, ht, hval, hpc, hframe⟩ := aluUnary_completes .inc aluInc ra s
    exact ⟨t, ht, hval ▸ aluInc_toNat _, hpc, hframe⟩
  · obtain ⟨t, ht, hval, hpc, hframe⟩ := aluUnary_completes .dec aluDec ra s
    exact ⟨t, ht, hval ▸ aluDec_toNat _, hpc, hframe⟩

/-! ### CMP and the flags (R133, R135) -/

/-- Of the three comparisons exactly one holds. -/
theorem Flags.compare_exactly_one (x y : Byte) :
    (Flags.compare x y).e.toNat + (Flags.compare x y).g.toNat + (Flags.compare x y).l.toNat = 1 := by
  rcases Nat.lt_trichotomy x.toNat y.toNat with h | h | h
  · simp [Flags.compare, h, h.ne, h.not_gt]
  · simp [Flags.compare, h]
  · simp [Flags.compare, h, h.ne', h.not_gt]

/-- CMP with two registers sets the flags of their comparison and advances past its three bytes. -/
theorem exec_cmp_toByte (ra rb : Reg) (s : State) : exec (.cmp ra.toByte rb.toByte) s =
    .next ((s.setFlags (Flags.compare (s.readReg ra) (s.readReg rb))).advance 2) :=
  withRegs_toByte .cmp ra rb s _

/-- Settles O17: each flag decides its comparison, and of the three exactly one holds
(`Flags.compare_exactly_one`). -/
theorem cmpSetsExactlyOneFlag : Obligations.CmpSetsExactlyOneFlag :=
  fun ra rb s => ⟨rfl, _, exec_cmp_toByte ra rb s, decide_eq_true_iff, decide_eq_true_iff,
    decide_eq_true_iff, Flags.compare_exactly_one _ _, rfl, fun _ _ => rfl, fun _ _ => rfl, rfl,
    ⟨rfl, rfl, rfl, rfl, rfl, rfl⟩⟩

/-- An instruction other than CMP and IRET leaves the flags as they were, completed or faulted. -/
theorem exec_flags_eq {i : Instr} {s t : State} (h : exec i s = .next t)
    (hi : i.mnemonic ∉ [.cmp, .iret]) : t.flags = s.flags := by
  cases i with
  | cmp a b | iret => simp [Instr.mnemonic] at hi
  | nop | hlt => cases h; rfl
  | ret =>
    obtain ⟨v, w, rfl⟩ | ⟨f, rfl⟩ := execRet_next h <;> rfl
  | push a =>
    obtain ⟨e, rfl⟩ | ⟨f, rfl⟩ := execPush_next h <;> rfl
  | call a =>
    obtain ⟨e, v, rfl⟩ | ⟨f, rfl⟩ := execCall_next h <;> rfl
  | pop a =>
    obtain ⟨r, -, rfl⟩ | ⟨f, rfl⟩ := execPop_next h
    · exact s.popped_flags r
    · rfl
  | int a =>
    obtain ⟨u, v, es, hu, rfl⟩ | ⟨f, rfl⟩ := execInt_next h
    · obtain ⟨-, -, hflags, -⟩ := pushAll_ok hu
      exact hflags
    · rfl
  | prn a | pra a | jmp a | ldi a imm =>
    obtain ⟨r, -, hk⟩ | rfl := withReg_next h
    · cases hk; rfl
    · rfl
  | jeq a | jne a | jgt a | jlt a | jle a | jge a =>
    obtain ⟨p, rfl⟩ | ⟨f, rfl⟩ := jumpIf_next h <;> rfl
  | inc a | dec a | not a =>
    obtain ⟨r, v, -, rfl⟩ | ⟨f, rfl⟩ := aluUnary_next h <;> rfl
  | ld a b | st a b =>
    obtain ⟨ra, rb, -, -, hk⟩ | rfl := withRegs_next h
    · cases hk; rfl
    · rfl
  | div a b | mod a b =>
    obtain ⟨r, v, -, rfl⟩ | ⟨f, rfl⟩ := aluDivide_next h <;> rfl
  | add a b | sub a b | mul a b | and a b | or a b | xor a b | shl a b | shr a b =>
    obtain ⟨r, v, -, rfl⟩ | ⟨f, rfl⟩ := aluBinary_next h <;> rfl

/-- Settles O39: `exec_flags_eq`, which holds of faulting instructions too. -/
theorem onlyCmpAndIretWriteFlags : Obligations.OnlyCmpAndIretWriteFlags :=
  fun _ _ _ h _ hi => exec_flags_eq h hi

/-! ### Laws between the results (R138) -/

/-- Settles O56: SUB reads the R[rb] that ADD left alone, so it undoes the sum (`aluSub_aluAdd`); the
other registers are in both frames. -/
theorem addThenSubRestores : Obligations.AddThenSubRestores := by
  intro ra rb s hne
  obtain ⟨t, ht, hadd, -, hst⟩ := aluBinary_completes .add aluAdd ra rb s
  obtain ⟨u, hu, hsub, -, htu⟩ := aluBinary_completes .sub aluSub ra rb t
  have hkeep : t.readReg rb = s.readReg rb := hst.regs rb (by simpa using hne.symm)
  refine ⟨t, u, ht, hu, Regs.ext_get fun r => ?_⟩
  by_cases hr : r = ra
  · subst hr
    calc u.readReg r = aluSub (aluAdd (s.readReg r) (s.readReg rb)) (s.readReg rb) := by
          rw [hsub, hadd, hkeep]
      _ = s.readReg r := aluSub_aluAdd _ _
  · have hout : r ∉ [ra] := by simpa using hr
    exact (htu.regs r hout).trans (hst.regs r hout)

/-- Settles O57: quotient and remainder of the same division (`aluDiv_toNat`, `aluMod_toNat`). -/
theorem divAndModRecomposeTheDividend : Obligations.DivAndModRecomposeTheDividend := by
  intro ra rb s h
  obtain ⟨t, ht, hdiv, -⟩ := aluBinary_completes .div aluDiv ra rb s
  obtain ⟨u, hu, hmod, -⟩ := aluBinary_completes .mod aluMod ra rb s
  have hpos : 0 < (s.readReg rb).toNat :=
    Nat.pos_of_ne_zero fun h0 => h (BitVec.eq_of_toNat_eq h0)
  refine ⟨t, u, (aluDivide_eq_aluBinary h).trans ht, (aluDivide_eq_aluBinary h).trans hu, ?_, ?_⟩
  · rw [hdiv, hmod, aluDiv_toNat, aluMod_toNat]
    exact Nat.div_add_mod' _ _
  · rw [hmod, aluMod_toNat]
    exact Nat.mod_lt _ hpos

end Sys2Proof.Machine
end

section
/-! PROOFS of the statements of 42_load_store.md: what LDI, LD and ST write (R150-R152). -/

namespace Sys2Proof.Machine

/-! ### The register fault of an operand byte above 7 (R103) -/

/-- A register operand byte above 7 is InvalidRegisterIndex, recorded with the opcode byte. -/
theorem withReg_faults_of_gt {m : Mnemonic} {a : Byte} {s : State} {k} (h : 7 < a.toNat) :
    FaultsWith .invalidRegisterIndex (some m.opcode) s (withReg m a s k) := by
  rw [withReg_of_gt h]
  exact raiseIn_faults m _ s

/-- One of two register operand bytes above 7 is InvalidRegisterIndex, recorded with the opcode byte. -/
theorem withRegs_faults_of_gt {m : Mnemonic} {a b : Byte} {s : State} {k}
    (h : 7 < a.toNat ∨ 7 < b.toNat) :
    FaultsWith .invalidRegisterIndex (some m.opcode) s (withRegs m a b s k) := by
  rw [withRegs_of_gt h]
  exact raiseIn_faults m _ s

/-! ### ST (R152) -/

/-- One byte of memory written and the pc moved: all else stays. -/
theorem Frame.writeMem_advance (s : State) (a v : Byte) (n : Nat) :
    Frame [] [a] s ((s.writeMem a v).advance n) where
  regs _ _ := rfl
  mem x hx := by
    rw [State.advance_readMem, State.readMem_writeMem, if_neg (List.ne_of_not_mem_cons hx)]
  flags := rfl
  out := rfl
  run := ⟨rfl, rfl, rfl, rfl, rfl, rfl⟩

/-- What a fetch gives at the address of a store, if the fetch check lets it through, is the byte
stored (R61). -/
theorem State.eq_of_fetch_writeMem_same {s : State} {a v w : Byte}
    (h : (s.writeMem a v).fetch a.toNat = some w) : w = v := by
  rw [State.fetch_writeMem, if_pos rfl, Option.map_eq_some_iff] at h
  obtain ⟨-, -, hv⟩ := h
  exact hv.symm

/-- Settles O20: the state ST leaves (`exec_st_toByte`) differs in one byte of memory and the pc
(`Frame.writeMem_advance`), and a read and a fetch of that byte give the byte stored. -/
theorem stWritesOnlyTheAddressedByte : Obligations.StWritesOnlyTheAddressedByte := by
  refine ⟨fun ra rb s => ⟨rfl, _, exec_st_toByte ra rb s, ?_, fun v hv => ?_, rfl,
    .writeMem_advance s _ _ 2⟩, fun a b s h => withRegs_faults_of_gt h⟩
  · rw [State.advance_readMem, State.readMem_writeMem_same]
  · rw [State.fetch_advance] at hv
    exact State.eq_of_fetch_writeMem_same hv

/-! ### LDI and LD (R150, R151) -/

/-- LDI with a register writes the immediate to it and advances past its three bytes. -/
theorem exec_ldi_toByte (ra : Reg) (imm : Byte) (s : State) : exec (.ldi ra.toByte imm) s =
    .next ((s.writeReg ra imm).advance 2) :=
  withReg_toByte .ldi ra s _

/-- LD with two registers writes the byte at the address R[rb] to R[ra] and advances past its three
bytes. -/
theorem exec_ld_toByte (ra rb : Reg) (s : State) : exec (.ld ra.toByte rb.toByte) s =
    .next ((s.writeReg ra (s.readMem (s.readReg rb))).advance 2) :=
  withRegs_toByte .ld ra rb s _

/-- Settles O18: LDI is one register write with the immediate (`exec_ldi_toByte`). -/
theorem ldiWritesTheImmediate : Obligations.LdiWritesTheImmediate :=
  ⟨fun ra imm s => ⟨rfl, _, exec_ldi_toByte ra imm s, State.readReg_writeReg_same s ra imm, rfl,
    .writeReg_advance s ra imm 2⟩, fun _ _ _ h => withReg_faults_of_gt h⟩

/-- Settles O19: LD is one register write with the byte read from memory (`exec_ld_toByte`). -/
theorem ldReadsTheAddressedByte : Obligations.LdReadsTheAddressedByte :=
  ⟨fun ra rb s => ⟨rfl, _, exec_ld_toByte ra rb s, State.readReg_writeReg_same s ra _, rfl,
    .writeReg_advance s ra _ 2⟩, fun _ _ _ h => withRegs_faults_of_gt h⟩

end Sys2Proof.Machine
end

section
/-! PROOFS of the statements of 43_output.md: the events PRN and PRA append (R161, R162), and the text an
event renders as (R160). -/

namespace Sys2Proof.Machine

/-! ### The event appended (R161, R162) -/

/-- One event emitted and the pc moved: the output grows by the event, and all else stays. -/
theorem State.emit_advance_keeps (s : State) (ev : OutputEvent) (n : Nat) :
    KeepsRegsBut [] s ((s.emit ev).advance n) ∧ KeepsMemBut [] s ((s.emit ev).advance n) ∧
      ((s.emit ev).advance n).flags = s.flags ∧ KeepsRun s ((s.emit ev).advance n) :=
  ⟨fun _ _ => rfl, fun _ _ => rfl, rfl, ⟨rfl, rfl, rfl, rfl, rfl, rfl⟩⟩

/-- PRN with a register emits its number and advances past its two bytes. -/
theorem exec_prn_toByte (ra : Reg) (s : State) : exec (.prn ra.toByte) s =
    .next ((s.emit (.dec (s.readReg ra))).advance 1) :=
  withReg_toByte .prn ra s _

/-- PRA with a register emits its character and advances past its two bytes. -/
theorem exec_pra_toByte (ra : Reg) (s : State) : exec (.pra ra.toByte) s =
    .next ((s.emit (.chr (s.readReg ra))).advance 1) :=
  withReg_toByte .pra ra s _

/-! ### The text of an event (R160) -/

/-- The text of a number is its digits and a line feed. -/
theorem OutputEvent.render_dec (v : Byte) :
    (OutputEvent.dec v).render = decimalDigits v ++ ['\n'] := rfl

/-- The text of a character is the one code point. -/
theorem OutputEvent.render_chr (v : Byte) :
    (OutputEvent.chr v).render = [Char.ofNat v.toNat] := rfl

/-- A byte has one, two or three digits, by its size. -/
theorem decimalDigits_cases (v : Byte) :
    (v.toNat < 10 ∧ decimalDigits v = [decimalDigit v.toNat]) ∨
    (10 ≤ v.toNat ∧ v.toNat < 100 ∧
      decimalDigits v = [decimalDigit (v.toNat / 10), decimalDigit v.toNat]) ∨
    (100 ≤ v.toNat ∧ decimalDigits v =
      [decimalDigit (v.toNat / 100), decimalDigit (v.toNat / 10), decimalDigit v.toNat]) := by
  unfold decimalDigits
  by_cases h10 : v.toNat < 10
  · exact .inl ⟨h10, if_pos h10⟩
  · by_cases h100 : v.toNat < 100
    · exact .inr (.inl ⟨Nat.le_of_not_lt h10, h100, (if_neg h10).trans (if_pos h100)⟩)
    · exact .inr (.inr ⟨Nat.le_of_not_lt h100, (if_neg h10).trans (if_neg h100)⟩)

/-- `ds` is the decimal numeral of `v`, as values of digits, most significant first: at least one digit,
each at most 9, worth `v` together, and with no leading zero but in the numeral of 0 (R160). -/
structure IsNumeral (v : Byte) (ds : List Nat) : Prop where
  le_nine : ∀ d ∈ ds, d ≤ 9
  value : ds.foldl (fun n d => 10 * n + d) 0 = v.toNat
  no_leading_zero : ds.head? = some 0 → v = 0 ∧ ds = [0]
  ne_nil : ds ≠ []

/-- A numeral that does not begin with 0 needs no more than digits of the right value. -/
theorem IsNumeral.of_leading_pos {v : Byte} {d : Nat} {ds : List Nat} (hd : 0 < d)
    (hle : ∀ e ∈ d :: ds, e ≤ 9) (hval : (d :: ds).foldl (fun n e => 10 * n + e) 0 = v.toNat) :
    IsNumeral v (d :: ds) where
  le_nine := hle
  value := hval
  no_leading_zero h := absurd (Option.some.inj h) hd.ne'
  ne_nil := List.cons_ne_nil _ _

/-- A byte below 10 is its own one digit, the 0 included. -/
theorem IsNumeral.of_lt_ten {v : Byte} (h : v.toNat < 10) : IsNumeral v [v.toNat % 10] := by
  rw [Nat.mod_eq_of_lt h]
  refine ⟨fun d hd => ?_, by simp, fun h0 => ?_, List.cons_ne_nil _ _⟩
  · rw [List.mem_singleton.mp hd]
    exact Nat.le_of_lt_succ h
  · have hzero : v.toNat = 0 := Option.some.inj h0
    exact ⟨BitVec.eq_of_toNat_eq hzero, by rw [hzero]⟩

/-- The digits of a byte are the characters of its numeral. -/
theorem decimalDigits_isNumeral (v : Byte) : ∃ ds : List Nat,
    decimalDigits v = ds.map (fun d => Char.ofNat (48 + d)) ∧ IsNumeral v ds := by
  have hdigit (n : Nat) : n % 10 ≤ 9 := Nat.le_of_lt_succ (Nat.mod_lt n (by decide))
  obtain ⟨hlt, h⟩ | ⟨hge, hlt, h⟩ | ⟨hge, h⟩ := decimalDigits_cases v
  · exact ⟨[v.toNat % 10], h, .of_lt_ten hlt⟩
  · refine ⟨[v.toNat / 10 % 10, v.toNat % 10], h, .of_leading_pos (by omega) ?_ ?_⟩
    · simp [hdigit]
    · simp only [List.foldl]
      omega
  · have := v.isLt
    refine ⟨[v.toNat / 100 % 10, v.toNat / 10 % 10, v.toNat % 10], h,
      .of_leading_pos (by omega) ?_ ?_⟩
    · simp [hdigit]
    · simp only [List.foldl]
      omega

/-- Settles O21: the state PRN leaves (`exec_prn_toByte`) differs in the output and the pc
(`State.emit_advance_keeps`). -/
theorem prnEmitsTheNumber : Obligations.PrnEmitsTheNumber :=
  ⟨fun ra s => ⟨rfl, _, exec_prn_toByte ra s, rfl, rfl, s.emit_advance_keeps _ 1⟩,
    fun _ _ h => withReg_faults_of_gt h, by decide, by decide, by decide⟩

/-- Settles O22: the state PRA leaves (`exec_pra_toByte`) differs in the output and the pc
(`State.emit_advance_keeps`). -/
theorem praEmitsTheCharacter : Obligations.PraEmitsTheCharacter :=
  ⟨fun ra s => ⟨rfl, _, exec_pra_toByte ra s, rfl, rfl, s.emit_advance_keeps _ 1⟩,
    fun _ _ h => withReg_faults_of_gt h, OutputEvent.render_chr⟩

/-- Settles O23: a number's text is the characters of its numeral (`decimalDigits_isNumeral`) and a line
feed. -/
theorem eventsRenderAsDecimalOrCharacter : Obligations.EventsRenderAsDecimalOrCharacter := by
  refine ⟨fun v => ?_, OutputEvent.render_chr⟩
  obtain ⟨ds, hds, hle, hval, hzero, hne⟩ := decimalDigits_isNumeral v
  exact ⟨ds, by rw [OutputEvent.render_dec, hds], hle, hval, hzero, hne⟩

end Sys2Proof.Machine
end

section
/-! PROOFS of the statements of 44_stack.md: PUSH and POP (R174, R175), the law between them (R176), and
the stack check, on and off (R172, R173, R227). -/

namespace Sys2Proof.Machine

/-! ### Legal and illegal stack operations (R172, R173) -/

theorem State.not_pushLegal {s : State} (hc : s.cfg.stackCheck = true)
    (h : ¬(s.stackLimit + 1 ≤ (s.readReg .r7).toNat ∧ (s.readReg .r7).toNat ≤ s.cfg.spInit.toNat)) :
    ¬s.pushLegal = true := by
  rw [State.pushLegal_iff, hc]
  exact fun hl => hl.elim nofun h

theorem State.not_popLegal {s : State} (hc : s.cfg.stackCheck = true)
    (h : ¬(s.stackLimit ≤ (s.readReg .r7).toNat ∧ (s.readReg .r7).toNat + 1 ≤ s.cfg.spInit.toNat)) :
    ¬s.popLegal = true := by
  rw [State.popLegal_iff, hc]
  exact fun hl => hl.elim nofun h

/-- An instruction that pushes one byte: what it goes on to where the push is legal, StackOverflow where
it is not. -/
theorem commit_push8 (m : Mnemonic) (e : State → Byte) (g : State → State) (s : State) :
    commit m s ((push8 e s).map g) =
      if s.pushLegal then .next (g (s.pushed e)) else raiseIn m .stackOverflow s := by
  rw [push8_eq]
  split <;> rfl

/-- PUSH with a register (R174). -/
theorem exec_push_toByte (ra : Reg) (s : State) : exec (.push ra.toByte) s =
    if s.pushLegal then .next ((s.pushed fun t => t.readReg ra).advance 1)
    else raiseIn .push .stackOverflow s := by
  rw [exec, execPush, withReg_toByte, commit_push8]

/-- POP with a register (R175). -/
theorem exec_pop_toByte (ra : Reg) (s : State) : exec (.pop ra.toByte) s =
    if s.popLegal then .next ((s.popped ra).advance 1) else raiseIn .pop .stackUnderflow s := by
  rw [exec, execPop, withReg_toByte, popReg_eq]
  split <;> rfl

/-- RET (R181). -/
theorem exec_ret_eq (s : State) : exec .ret s =
    if s.popLegal then
      .next ((s.writeReg .r7 (s.readReg .r7 + 1)).jump (s.readMem (s.readReg .r7)))
    else raiseIn .ret .stackUnderflow s := by
  rw [exec, execRet, pop8_eq]
  split <;> rfl

/-- CALL with a register and a return address in memory (R180). -/
theorem exec_call_toByte {ra : Reg} {s : State} (hret : s.pc.toNat + 2 ≤ 255) :
    exec (.call ra.toByte) s =
      if s.pushLegal then
        .next ((s.pushed fun _ => BitVec.ofNat 8 (s.pc.toNat + 2)).jump
          ((s.pushed fun _ => BitVec.ofNat 8 (s.pc.toNat + 2)).readReg ra))
      else raiseIn .call .stackOverflow s := by
  rw [exec, execCall, withReg_toByte, withReturnAddress_of_le hret, commit_push8]

/-! ### PUSH (R174) -/

/-- A push stores its byte where the new R7 points. -/
theorem State.pushed_readMem_same (s : State) (ra : Reg) :
    (s.pushed fun t => t.readReg ra).readMem (s.readReg .r7 - 1) =
      if ra = .r7 then s.readReg .r7 - 1 else s.readReg ra := by
  rw [State.pushed_readMem, if_pos rfl, State.readReg_writeReg]

/-- A push and a move of the pc change R7, the byte below it and the pc. -/
theorem Frame.pushed_setPc (s : State) (e : State → Byte) (p : PcWord) :
    Frame [.r7] [s.readReg .r7 - 1] s ((s.pushed e).setPc p) where
  regs q hq := (s.pushed_readReg e q).trans (if_neg (List.ne_of_not_mem_cons hq))
  mem x hx := (s.pushed_readMem e x).trans (if_neg (List.ne_of_not_mem_cons hx))
  flags := rfl
  out := rfl
  run := ⟨rfl, rfl, rfl, rfl, rfl, rfl⟩

/-- An interrupt entry overflows where not even its first push is legal. -/
theorem interruptEntry_overflow {n ret : Byte} {s : State} (h : ¬s.pushLegal = true) :
    interruptEntry n ret s = .error .stackOverflow := by
  have hpush : pushAll (interruptFrame ret) s = .error .stackOverflow := by
    rw [interruptFrame, pushAll, push8_eq, if_neg h]
  rw [interruptEntry, hpush]

/-- Settles O24: PUSH is decided by `State.pushLegal` (`exec_push_toByte`), and so is the first push of
CALL and INT. -/
theorem pushStoresBelowTheStackPointer : Obligations.PushStoresBelowTheStackPointer := by
  refine ⟨fun ra s => ⟨rfl, fun hlegal => ?_, fun hc hout => ?_⟩, fun _ _ h => withReg_faults_of_gt h⟩
  · refine ⟨_, (exec_push_toByte ra s).trans (if_pos (s.pushLegal_iff.mpr hlegal)), ?_, ?_, rfl,
      .pushed_setPc s _ _⟩
    · rw [State.advance_readReg, State.pushed_readReg, if_pos rfl]
    · exact s.pushed_readMem_same ra
  · have hill : ¬s.pushLegal = true := State.not_pushLegal hc hout
    refine ⟨?_, fun hret => ?_, fun hret hn => ?_⟩
    · rw [exec_push_toByte, if_neg hill]
      exact raiseIn_faults .push _ s
    · rw [exec_call_toByte hret, if_neg hill]
      exact raiseIn_faults .call _ s
    · rw [exec_int_toByte hn hret, interruptEntry_overflow hill]
      exact raiseIn_faults .int _ s

/-! ### POP (R175) -/

/-- A pop and a move of the pc change the register popped, R7 and the pc. -/
theorem Frame.popped_setPc (s : State) (r : Reg) (p : PcWord) :
    Frame [r, .r7] [] s ((s.popped r).setPc p) where
  regs q hq := by
    have hqr : q ≠ r := List.ne_of_not_mem_cons hq
    have hq7 : q ≠ .r7 := List.ne_of_not_mem_cons (List.not_mem_of_not_mem_cons hq)
    rw [State.setPc_readReg, State.popped_readReg, if_neg hq7, if_neg hqr]
  mem x _ := s.popped_readMem r x
  flags := s.popped_flags r
  out := s.popped_out r
  run := ⟨s.popped_status r, s.popped_err r, s.popped_imgStart r, s.popped_imgEnd r, s.popped_cfg r,
    s.popped_loaded r⟩

/-- An interrupt return underflows where its first pop is illegal. -/
theorem interruptReturn_underflow {s : State} (h : ¬s.popLegal = true) :
    interruptReturn s = .error .stackUnderflow := by
  rw [interruptReturn, popRegs, popReg_eq, if_neg h]

/-- Settles O25: POP and RET are decided by `State.popLegal` (`exec_pop_toByte`, `exec_ret_eq`), and so is
the first pop of IRET. -/
theorem popReadsTheTopOfTheStack : Obligations.PopReadsTheTopOfTheStack := by
  refine ⟨fun ra s => ⟨rfl, fun hlegal => ?_, fun hc hout => ?_⟩, fun _ _ h => withReg_faults_of_gt h⟩
  · refine ⟨_, (exec_pop_toByte ra s).trans (if_pos (s.popLegal_iff.mpr hlegal)), fun hne => ⟨?_, ?_⟩,
      fun heq => ?_, ?_, .popped_setPc s ra _⟩
    · rw [State.advance_readReg, State.popped_readReg, if_neg hne, if_pos rfl]
    · rw [State.advance_readReg, State.popped_readReg, if_pos rfl, if_neg hne]
    · rw [State.advance_readReg, State.popped_readReg, if_pos rfl, if_pos heq]
    · rw [State.advance_pc, State.seq, State.popped_pc]
  · have hill : ¬s.popLegal = true := State.not_popLegal hc hout
    refine ⟨?_, ?_, ?_⟩
    · rw [exec_pop_toByte, if_neg hill]
      exact raiseIn_faults .pop _ s
    · rw [exec_ret_eq, if_neg hill]
      exact raiseIn_faults .ret _ s
    · rw [exec, execIret, interruptReturn_underflow hill]
      exact raiseIn_faults .iret _ s

/-! ### PUSH, then POP (R176) -/

/-- A PUSH that leaves the core Running was legal. -/
theorem exec_push_running {ra : Reg} {s t : State} (h : exec (.push ra.toByte) s = .next t)
    (ht : t.status = .running) : t = (s.pushed fun u => u.readReg ra).advance 1 := by
  rw [exec_push_toByte] at h
  split at h <;> cases h
  · rfl
  · cases ht

/-- A POP that leaves the core Running was legal. -/
theorem exec_pop_running {ra : Reg} {s t : State} (h : exec (.pop ra.toByte) s = .next t)
    (ht : t.status = .running) : t = (s.popped ra).advance 1 := by
  rw [exec_pop_toByte] at h
  split at h <;> cases h
  · rfl
  · cases ht

/-- Popping what was pushed from a register gives every register back: R7 goes down and up again, and
for R7 itself the byte stored is the decremented R7, which the pop increments. -/
theorem State.popped_pushed_readReg (s : State) (ra q : Reg) (n : Nat) :
    (((s.pushed fun t => t.readReg ra).advance n).popped ra).readReg q = s.readReg q := by
  have hsp : (s.pushed fun t => t.readReg ra).readReg .r7 = s.readReg .r7 - 1 :=
    (s.pushed_readReg _ _).trans (if_pos rfl)
  simp only [State.popped_readReg, State.advance_readReg, State.advance_readMem, hsp,
    State.pushed_readMem_same]
  by_cases hq7 : q = .r7
  · by_cases hra : ra = .r7 <;> simp [hq7, hra]
  · by_cases hqa : q = ra
    · subst hqa; simp [hq7]
    · simp [hq7, hqa, State.pushed_readReg]

/-- Settles O27: both instructions were legal, and a pop undoes a push (`State.popped_pushed_readReg`). -/
theorem pushThenPopIsIdentity : Obligations.PushThenPopIsIdentity := by
  intro ra s t u _ hpush ht hpop hu
  obtain rfl := exec_push_running hpush ht
  obtain rfl := exec_pop_running hpop hu
  exact Regs.ext_get fun q => s.popped_pushed_readReg ra q 1

/-! ### With the stack check off (R173) -/

/-- The outcome is no next state Halted with a stack fault. -/
def NoStackFault (o : Result) : Prop :=
  ∀ t, o = .next t →
    t.status ≠ .halted (.fault .stackOverflow) ∧ t.status ≠ .halted (.fault .stackUnderflow)

theorem NoStackFault.raiseIn {m : Mnemonic} {f : FaultName} {s : State}
    (h : f ≠ .stackOverflow ∧ f ≠ .stackUnderflow := by decide) : NoStackFault (raiseIn m f s) := by
  rintro t ⟨⟩
  simpa using h

theorem NoStackFault.withReg {m : Mnemonic} {a : Byte} {s : State} {k}
    (h : ∀ r, NoStackFault (k r)) : NoStackFault (withReg m a s k) := by
  obtain ⟨r, -, e⟩ | ⟨-, e⟩ := withReg_cases m a s k <;> rw [e]
  · exact h r
  · exact .raiseIn

theorem NoStackFault.withRegs {m : Mnemonic} {a b : Byte} {s : State} {k}
    (h : ∀ ra rb, NoStackFault (k ra rb)) : NoStackFault (withRegs m a b s k) :=
  .withReg fun ra => .withReg (h ra)

theorem NoStackFault.withReturnAddress {m : Mnemonic} {s : State} {k}
    (h : ∀ ret, NoStackFault (k ret)) : NoStackFault (withReturnAddress m s k) := by
  obtain ⟨-, e⟩ | ⟨-, e⟩ := withReturnAddress_cases m s k <;> rw [e]
  · exact h _
  · exact .raiseIn

/-- With the check off every list of `popreg`s is legal, R7 among them or not. -/
theorem popRegs_unchecked {is : List Reg} {s : State} (hc : s.cfg.stackCheck = false) :
    popRegs is s = .ok (State.poppedAll is s) := by
  induction is generalizing s with
  | nil => rfl
  | cons i is ih =>
    rw [popRegs, popReg_eq, if_pos (s.popLegal_iff.mpr (.inl hc))]
    exact ih ((congrArg Config.stackCheck (s.popped_cfg i)).trans hc)

/-- With the check off an interrupt return has no fault left to raise. -/
theorem interruptReturn_unchecked {s : State} (hc : s.cfg.stackCheck = false) :
    ∃ t, interruptReturn s = .ok t := by
  have hregs := popRegs_unchecked (is := [.r7, .r6, .r5, .r4, .r3, .r2, .r1, .r0]) hc
  obtain ⟨hcfg, -⟩ := popRegs_ok hregs
  have hpop {t : State} (ht : t.cfg = s.cfg) : t.popLegal = true :=
    t.popLegal_iff.mpr (.inl (ht ▸ hc))
  simp [interruptReturn, hregs, pop8_eq, hpop, hcfg]

section
variable {s : State} (hr : s.status = .running)
include hr

/-- A next state with the run state of a Running core. -/
theorem NoStackFault.next {t : State} (h : t.status = s.status) : NoStackFault (.next t) := by
  rintro u ⟨⟩
  rw [h, hr]
  exact ⟨nofun, nofun⟩

theorem jumpIf_noStackFault {m : Mnemonic} {c : Flags → Bool} {a : Byte} :
    NoStackFault (jumpIf m c a s) :=
  .withReg fun _ => .next hr (by split <;> rfl)

theorem aluDivide_noStackFault {m : Mnemonic} {f : Byte → Byte → Byte} {a b : Byte} :
    NoStackFault (aluDivide m f a b s) :=
  .withRegs fun _ _ => by
    split
    · exact .raiseIn
    · exact .next hr rfl

variable (hc : s.cfg.stackCheck = false)
include hc

/-- A push, then anything that leaves the run state. -/
theorem NoStackFault.commit_push8 {m : Mnemonic} {e : State → Byte} {g : State → State}
    (hg : ∀ t, (g t).status = t.status) : NoStackFault (commit m s ((push8 e s).map g)) := by
  rw [Machine.commit_push8, if_pos (s.pushLegal_iff.mpr (.inl hc))]
  exact .next hr (hg _)

theorem execPop_noStackFault {a : Byte} : NoStackFault (execPop a s) :=
  .withReg fun ra => by
    rw [popReg_eq, if_pos (s.popLegal_iff.mpr (.inl hc))]
    exact .next hr (s.popped_status ra)

theorem execRet_noStackFault : NoStackFault (execRet s) := by
  rw [execRet, pop8_eq, if_pos (s.popLegal_iff.mpr (.inl hc))]
  exact .next hr rfl

/-- The ten pushes are legal together, so only the vector slot can fault. -/
theorem interruptEntry_noStackFault {n ret : Byte} :
    NoStackFault (commit .int s (interruptEntry n ret s)) := by
  have hpush := pushAll_legal (es := interruptFrame ret) (.inl hc)
  obtain ⟨-, -, -, hstatus, -⟩ := pushAll_ok hpush
  rw [interruptEntry, hpush]
  dsimp only
  split
  · exact .raiseIn
  · exact .next hr hstatus

theorem execInt_noStackFault {a : Byte} : NoStackFault (execInt a s) :=
  .withReg fun _ => by
    split
    · exact .raiseIn
    · exact .withReturnAddress fun _ => interruptEntry_noStackFault hr hc

theorem execIret_noStackFault : NoStackFault (execIret s) := by
  obtain ⟨t, ht⟩ := interruptReturn_unchecked hc
  obtain ⟨u, p, q, hu, hp, hq, rfl⟩ := interruptReturn_ok ht
  obtain ⟨-, -, -, hstatus, -⟩ := popRegs_ok hu
  obtain ⟨-, rfl⟩ := pop8_ok.mp hp
  obtain ⟨-, rfl⟩ := pop8_ok.mp hq
  rw [execIret, ht]
  exact .next hr hstatus

/-- With the stack check off no instruction of a Running core takes a stack fault. -/
theorem exec_noStackFault (i : Instr) : NoStackFault (exec i s) := by
  cases i with
  | nop => exact .next hr rfl
  | hlt => rintro t ⟨⟩; exact ⟨nofun, nofun⟩
  | ret => exact execRet_noStackFault hr hc
  | iret => exact execIret_noStackFault hr hc
  | push a => exact .withReg fun _ => .commit_push8 hr hc fun _ => rfl
  | call a => exact .withReg fun _ => .withReturnAddress fun _ => .commit_push8 hr hc fun _ => rfl
  | pop a => exact execPop_noStackFault hr hc
  | int a => exact execInt_noStackFault hr hc
  | prn a | pra a | jmp a | inc a | dec a | not a | ldi a imm =>
    exact .withReg fun _ => .next hr rfl
  | jeq a | jne a | jgt a | jlt a | jle a | jge a => exact jumpIf_noStackFault hr
  | div a b | mod a b => exact aluDivide_noStackFault hr
  | ld a b | st a b | add a b | sub a b | mul a b | cmp a b | and a b | or a b | xor a b | shl a b
  | shr a b => exact .withRegs fun _ _ => .next hr rfl

end

/-- Settles O26: with the check off nothing raises a stack fault (`exec_noStackFault`) and PUSH and POP
are legal; with it on, 0 is below every region a push may start in, and 255 above every region a pop
may (O24, O25). -/
theorem stackPointerWrapsOnlyUnchecked : Obligations.StackPointerWrapsOnlyUnchecked := by
  obtain ⟨hpush, -⟩ := pushStoresBelowTheStackPointer
  obtain ⟨hpop, -⟩ := popReadsTheTopOfTheStack
  refine ⟨fun i s t hc hr h => exec_noStackFault hr hc i t h,
    fun ra s hc hra => ⟨fun h0 => ?_, fun h255 => ?_⟩, fun ra s hc => ⟨fun h0 => ?_, fun h255 => ?_⟩⟩
  · obtain ⟨-, hlegal, -⟩ := hpush ra s
    obtain ⟨t, ht, hsp, hmem, -⟩ := hlegal (.inl hc)
    rw [h0] at hsp hmem
    exact ⟨t, ht, hsp, hmem.trans (if_neg hra)⟩
  · obtain ⟨-, hlegal, -⟩ := hpop ra s
    obtain ⟨t, ht, hother, -⟩ := hlegal (.inl hc)
    obtain ⟨-, hsp⟩ := hother hra
    rw [h255] at hsp
    exact ⟨t, ht, hsp⟩
  · obtain ⟨-, -, hillegal⟩ := hpush ra s
    have hsp : (s.readReg .r7).toNat = 0 := congrArg BitVec.toNat h0
    obtain ⟨hfault, -⟩ := hillegal hc (by omega)
    exact hfault
  · obtain ⟨-, -, hillegal⟩ := hpop ra s
    have hsp : (s.readReg .r7).toNat = 255 := congrArg BitVec.toNat h255
    have htop := s.cfg.spInit.isLt
    obtain ⟨hfault, -⟩ := hillegal hc (by omega)
    exact hfault

end Sys2Proof.Machine
end

section
/-! PROOFS of the statements of 45_control.md: CALL and RET (R180, R181) and the law between them (R191),
the jumps (R182-R189), and HLT (R190). -/

namespace Sys2Proof.Machine

/-! ### CALL (R180) -/

/-- A return address past 255 faults. -/
theorem withReturnAddress_of_gt {m : Mnemonic} {s : State} {k} (h : 255 < s.pc.toNat + 2) :
    withReturnAddress m s k = raiseIn m .programCounterOutOfBounds s :=
  if_pos h

/-- CALL with a register and a return address past 255 (R180). -/
theorem exec_call_of_return_gt (ra : Reg) {s : State} (h : 255 < s.pc.toNat + 2) :
    exec (.call ra.toByte) s = raiseIn .call .programCounterOutOfBounds s := by
  rw [exec, execCall, withReg_toByte, withReturnAddress_of_gt h]

/-- Settles O28: CALL's return address is checked first (`exec_call_of_return_gt`), then its push
(`exec_call_toByte`), and the target is a register of the state pushed. -/
theorem callPushesTheReturnAddress : Obligations.CallPushesTheReturnAddress := by
  refine ⟨fun ra s => ⟨rfl, fun hret hlegal => ?_, fun hret => ?_, fun hret hc hout => ?_⟩,
    fun _ _ h => withReg_faults_of_gt h⟩
  · refine ⟨_, (exec_call_toByte hret).trans (if_pos (s.pushLegal_iff.mpr hlegal)), ?_, ?_, ?_,
      .pushed_setPc s _ _⟩
    · rw [State.jump_readReg, State.pushed_readReg, if_pos rfl]
    · rw [State.jump_readMem, State.pushed_readMem, if_pos rfl]
      exact Nat.mod_eq_of_lt (Nat.lt_succ_of_le hret)
    · rw [State.jump_pc, byte_zeroExtend_toNat, State.pushed_readReg]
  · rw [exec_call_of_return_gt ra hret]
    exact raiseIn_faults .call _ s
  · rw [exec_call_toByte hret, if_neg (State.not_pushLegal hc hout)]
    exact raiseIn_faults .call _ s

/-! ### RET (R181) -/

/-- A move of the pc after an instruction's effects stays within their frame. -/
theorem Frame.then_setPc {ws : List Reg} {as : List Byte} {s t : State} (h : Frame ws as s t)
    (p : PcWord) : Frame ws as s (t.setPc p) :=
  ⟨h.regs, h.mem, h.flags, h.out, { h.run with }⟩

/-- One register write and a jump change that register and the pc. -/
theorem Frame.writeReg_jump (s : State) (r : Reg) (v target : Byte) :
    Frame [r] [] s ((s.writeReg r v).jump target) :=
  (Frame.writeReg_advance s r v 0).then_setPc _

/-- Settles O29: RET is decided by `State.popLegal` and jumps to the byte popped (`exec_ret_eq`). -/
theorem retJumpsToThePoppedByte : Obligations.RetJumpsToThePoppedByte := by
  refine ⟨rfl, fun s => ⟨fun hlegal => ?_, fun hc hout => ?_⟩⟩
  · refine ⟨_, (exec_ret_eq s).trans (if_pos (s.popLegal_iff.mpr hlegal)), ?_, ?_,
      .writeReg_jump s _ _ _⟩
    · rw [State.jump_pc, byte_zeroExtend_toNat]
    · rw [State.jump_readReg, State.readReg_writeReg_same]
  · rw [exec_ret_eq, if_neg (State.not_popLegal hc hout)]
    exact raiseIn_faults .ret _ s

/-! ### CALL, then RET (R191) -/

/-- A CALL that leaves the core Running had a return address in memory and a legal push. -/
theorem exec_call_running {ra : Reg} {s t : State} (h : exec (.call ra.toByte) s = .next t)
    (ht : t.status = .running) : s.pc.toNat + 2 ≤ 255 ∧ s.pushLegal = true := by
  by_cases hret : s.pc.toNat + 2 ≤ 255
  · rw [exec_call_toByte hret] at h
    split at h <;> cases h
    · exact ⟨hret, ‹_›⟩
    · cases ht
  · rw [exec_call_of_return_gt ra (Nat.not_le.mp hret)] at h
    cases h
    cases ht

/-- A pop is legal wherever R7 stands as a legal push left it: R7 is above the stack limit before the
push, so it does not wrap, and one below it is inside the region of a pop. -/
theorem State.popLegal_of_pushLegal {s u : State} (h : s.pushLegal = true) (hcfg : u.cfg = s.cfg)
    (hend : u.imgEnd = s.imgEnd) (hsp : u.readReg .r7 = s.readReg .r7 - 1) : u.popLegal = true := by
  have hlimit : u.stackLimit = s.stackLimit := by simp only [State.stackLimit, hcfg, hend]
  rw [State.popLegal_iff, hlimit, hcfg, hsp]
  refine (s.pushLegal_iff.mp h).imp_right fun hregion => ?_
  have hpred : (s.readReg .r7 - 1).toNat = (s.readReg .r7).toNat - 1 := by bv_omega
  omega

/-- Settles O30: the CALL was legal, so the RET is (`State.popLegal_of_pushLegal`), and it pops the byte
that O28 says CALL pushed. -/
theorem callThenRetResumesAfterTheCall : Obligations.CallThenRetResumesAfterTheCall := by
  intro ra s t u v _ hcall ht hu hcfg hend hsp hmem hret
  obtain ⟨hfit, hpush⟩ := exec_call_running hcall ht
  obtain ⟨hcalls, -⟩ := callPushesTheReturnAddress
  obtain ⟨-, hcompletes, -⟩ := hcalls ra s
  obtain ⟨t', ht', htsp, htmem, -, htframe⟩ := hcompletes hfit (s.pushLegal_iff.mp hpush)
  cases hcall.symm.trans ht'
  have hpop : u.popLegal = true := State.popLegal_of_pushLegal hpush (hcfg.trans htframe.run.cfg)
    (hend.trans htframe.run.imgEnd) (hsp.trans htsp)
  obtain ⟨-, hrets⟩ := retJumpsToThePoppedByte
  obtain ⟨hreturns, -⟩ := hrets u
  obtain ⟨v', hv', hvpc, hvsp, hvframe⟩ := hreturns (u.popLegal_iff.mp hpop)
  cases hret.symm.trans hv'
  refine ⟨hvframe.run.status.trans hu, ?_, ?_, hvframe.regs, hvframe.flags, htframe.regs,
    htframe.flags⟩
  · rw [hvpc, hsp, hmem, htsp, htmem]
  · rw [hvsp, hsp, htsp, BitVec.sub_add_cancel]

/-! ### JMP (R182) -/

/-- JMP with a register. -/
theorem exec_jmp_toByte (ra : Reg) (s : State) :
    exec (.jmp ra.toByte) s = .next (s.jump (s.readReg ra)) :=
  withReg_toByte .jmp ra s _

/-- Settles O31: JMP is a move of the pc to the register's byte (`exec_jmp_toByte`). -/
theorem jmpGoesToTheRegister : Obligations.JmpGoesToTheRegister :=
  ⟨fun ra s => ⟨rfl, _, exec_jmp_toByte ra s, byte_zeroExtend_toNat _, .setPc s _⟩,
    fun _ _ h => withReg_faults_of_gt h⟩

/-! ### The conditional jumps (R183-R189) -/

/-- A conditional jump with a register moves the pc, whether or not it is taken. -/
theorem jumpIf_toByte (m : Mnemonic) (c : Flags → Bool) (ra : Reg) (s : State) :
    jumpIf m c ra.toByte s =
      .next (s.setPc (if c s.flags then (s.readReg ra).zeroExtend 9 else s.seq 1)) := by
  rw [jumpIf, withReg_toByte]
  split <;> rfl

/-- An instruction whose meaning is `jumpIf` on a test of the flags jumps when the test says so. -/
theorem JumpsWhen.of_jumpIf {j : Byte → Instr} {m : Mnemonic} {c : Flags → Bool} {ra : Reg} {s : State}
    {op : Byte} {cond : Prop} (henc : encode (j ra.toByte) = [op, ra.toByte])
    (hexec : exec (j ra.toByte) s = jumpIf m c ra.toByte s) (hcond : c s.flags = true ↔ cond) :
    JumpsWhen j ra s op cond := by
  refine ⟨henc, _, hexec.trans (jumpIf_toByte m c ra s), fun h => ?_, fun h => ?_, .setPc s _⟩
  · rw [State.setPc_pc, if_pos (hcond.mpr h), byte_zeroExtend_toNat]
  · rw [State.setPc_pc, if_neg (mt hcond.mp h)]
    rfl

/-- Settles O32: each of the six is `jumpIf` on its own test of the flags (`JumpsWhen.of_jumpIf`), behind
the check of its register operand. -/
theorem conditionalJumpsTestTheFlags : Obligations.ConditionalJumpsTestTheFlags := by
  refine ⟨fun ra s => ⟨?jeq, ?jne, ?jgt, ?jlt, ?jge, ?jle⟩, fun a s h j hj => ?regFault⟩
  case jeq => exact .of_jumpIf (c := Flags.condJeq) rfl rfl Iff.rfl
  case jne => exact .of_jumpIf (c := Flags.condJne) rfl rfl (Bool.not_eq_true' _).to_iff
  case jgt => exact .of_jumpIf (c := Flags.condJgt) rfl rfl Iff.rfl
  case jlt => exact .of_jumpIf (c := Flags.condJlt) rfl rfl Iff.rfl
  case jge => exact .of_jumpIf (c := Flags.condJge) rfl rfl Bool.or_eq_true_iff
  case jle => exact .of_jumpIf (c := Flags.condJle) rfl rfl Bool.or_eq_true_iff
  case regFault => fin_cases hj <;> exact withReg_faults_of_gt h

/-! ### HLT (R190) -/

/-- HLT halts with Ok. -/
theorem exec_hlt (s : State) : exec .hlt s = .next (s.halt .ok) := rfl

/-- Settles O33: HLT changes the run state alone (`exec_hlt`), and a step that enters Halted(Ok) took no
fault, so it completed the one instruction that changes the run state (`Completed.status`). -/
theorem hltHaltsWithOk : Obligations.HltHaltsWithOk := by
  refine ⟨⟨rfl, fun s => ⟨_, exec_hlt s, rfl, rfl, step_of_halted (State.halt_status s .ok),
    fun _ _ => rfl, fun _ _ => rfl, rfl, rfl, rfl, rfl, rfl, rfl, rfl⟩⟩, fun s t hstep hok => ?_⟩
  obtain ⟨hr, ⟨f, -, rfl⟩ | ⟨i, hi, -, hc⟩⟩ := step_cases hstep
  · cases hok
  · obtain ⟨hop, -, -⟩ := State.fetchInstr_ok hi
    rcases hc.status with hsame | ⟨rfl, -⟩
    · cases (hok.symm.trans hsame).trans hr
    · exact hop

end Sys2Proof.Machine
end

section
/-! PROOFS of the statements of 46_interrupt.md: INT (R200, R203), IRET (R201), and the law between them. -/

namespace Sys2Proof.Machine

/-! ### INT (R200, R203) -/

/-- The ten bytes of the interrupt frame, from the flags byte down to the decremented R7 (R203). -/
theorem interruptFrame_stored (s : State) (ret : Byte) {u : State}
    (hu : u = State.pushedAll (interruptFrame ret) s) :
    u.readMem (s.readReg .r7 - 1) = s.flags.toByte ∧ u.readMem (s.readReg .r7 - 2) = ret ∧
    u.readMem (s.readReg .r7 - 3) = s.readReg .r0 ∧ u.readMem (s.readReg .r7 - 4) = s.readReg .r1 ∧
    u.readMem (s.readReg .r7 - 5) = s.readReg .r2 ∧ u.readMem (s.readReg .r7 - 6) = s.readReg .r3 ∧
    u.readMem (s.readReg .r7 - 7) = s.readReg .r4 ∧ u.readMem (s.readReg .r7 - 8) = s.readReg .r5 ∧
    u.readMem (s.readReg .r7 - 9) = s.readReg .r6 ∧
    u.readMem (s.readReg .r7 - 10) = s.readReg .r7 - 10 := by
  obtain ⟨-, rfl, -, -, -, -, -, -, -, -, -, -, hmem⟩ := interruptFrame_pushed s ret
  simp only [← hu] at hmem
  simp [hmem]

/-- The ten pushes of INT change R7 and the ten bytes of the frame. -/
theorem Frame.interruptFrame_pushed (s : State) (ret : Byte) {u : State}
    (hu : u = State.pushedAll (interruptFrame ret) s) :
    Frame [.r7] [s.readReg .r7 - 1, s.readReg .r7 - 2, s.readReg .r7 - 3, s.readReg .r7 - 4,
      s.readReg .r7 - 5, s.readReg .r7 - 6, s.readReg .r7 - 7, s.readReg .r7 - 8,
      s.readReg .r7 - 9, s.readReg .r7 - 10] s u := by
  obtain ⟨v, hv, hcfg, hflags, hstatus, hstart, hend, herr, hout, -, hloaded, hregs, hmem⟩ :=
    Machine.interruptFrame_pushed s ret
  obtain rfl : v = u := hv.trans hu.symm
  refine ⟨fun q hq => ?_, fun x hx => ?_, hflags, hout, hstatus, herr, hstart, hend, hcfg, hloaded⟩
  · rw [hregs, if_neg (List.ne_of_not_mem_cons hq)]
  · simp only [List.mem_cons, List.not_mem_nil, or_false, not_or] at hx
    simp only [hmem, hx, if_false]

/-- Legal pushes and a vector slot in memory: the interrupt entry goes to the byte that the slot holds
after the pushes (R200). -/
theorem interruptEntry_of_slot_le {n ret : Byte} {s t : State}
    (hpush : pushAll (interruptFrame ret) s = .ok t)
    (hslot : s.cfg.intVectorBase.toNat + n.toNat ≤ 255) :
    interruptEntry n ret s = .ok (t.jump (t.readMem (s.cfg.intVectorBase + n))) := by
  obtain ⟨hcfg, -⟩ := pushAll_ok hpush
  have hvec : t.readVector n = some (t.readMem (s.cfg.intVectorBase + n)) := by
    rw [State.readVector, hcfg]
    exact if_pos hslot
  simp only [interruptEntry, hpush, hvec]

/-- INT with a number that has no vector slot (R200). -/
theorem exec_int_of_number_ge {ra : Reg} {s : State}
    (hn : s.cfg.intVectorCount ≤ (s.readReg ra).toNat) :
    exec (.int ra.toByte) s = raiseIn .int .invalidInterruptNumber s := by
  rw [exec, execInt, withReg_toByte, if_pos hn]

/-- INT with a legal number and a return address past 255 (R200). -/
theorem exec_int_of_return_gt {ra : Reg} {s : State} (hn : (s.readReg ra).toNat < s.cfg.intVectorCount)
    (hret : 255 < s.pc.toNat + 2) :
    exec (.int ra.toByte) s = raiseIn .int .programCounterOutOfBounds s := by
  rw [exec, execInt, withReg_toByte, if_neg (Nat.not_le.mpr hn), withReturnAddress_of_gt hret]

/-- Settles O35: INT's checks are made in the order of R230, then the ten pushes are legal or illegal
together (`pushAll_legal`, `pushAll_illegal`). -/
theorem intPushesTheFrameAndJumps : Obligations.IntPushesTheFrameAndJumps := by
  refine ⟨fun ra s => ⟨rfl, fun hn hslot hret hlegal => ?_, fun hn => ?_, fun hn hret => ?_,
    fun hn hret hc hout => ?_⟩, fun _ _ h => withReg_faults_of_gt h⟩
  · obtain ⟨u, hu, -, -, -, -, -, -, -, -, -, hregs, -⟩ :=
      interruptFrame_pushed s (BitVec.ofNat 8 (s.pc.toNat + 2))
    obtain ⟨hfl, hra, hr0, hr1, hr2, hr3, hr4, hr5, hr6, hr7⟩ := interruptFrame_stored s _ hu
    have hentry := interruptEntry_of_slot_le (hu ▸ pushAll_legal hlegal) hslot
    refine ⟨_, (exec_int_toByte hn hret).trans (congrArg _ hentry), ?_, ?_, hr0, hr1, hr2, hr3, hr4,
      hr5, hr6, hr7, hregs .r7, byte_zeroExtend_toNat _,
      (Frame.interruptFrame_pushed s _ hu).then_setPc _⟩
    · rw [State.jump_readMem, hfl, Flags.toByte_toNat]
    · rw [State.jump_readMem, hra]
      exact Nat.mod_eq_of_lt (Nat.lt_succ_of_le hret)
  · rw [exec_int_of_number_ge hn]
    exact raiseIn_faults .int _ s
  · rw [exec_int_of_return_gt hn hret]
    exact raiseIn_faults .int _ s
  · have hpush := pushAll_illegal (es := interruptFrame (BitVec.ofNat 8 (s.pc.toNat + 2)))
      (List.cons_ne_nil _ _) hc hout
    rw [exec_int_toByte hn hret, interruptEntry, hpush]
    exact raiseIn_faults .int _ s

/-! ### IRET (R201) -/

/-- `n` pops from R7 = `p` on are legal together (R172): the check is off, or the bytes at
`p`, …, `p + n - 1` lie in the stack region. -/
def State.PopsLegal (s : State) (p : Byte) (n : Nat) : Prop :=
  s.cfg.stackCheck = false ∨ (s.stackLimit ≤ p.toNat ∧ p.toNat + n ≤ s.cfg.spInit.toNat)

theorem State.popLegal_iff_popsLegal (s : State) : s.popLegal = true ↔ s.PopsLegal (s.readReg .r7) 1 :=
  s.popLegal_iff

/-- One more pop is legal after `n` legal ones exactly if it is legal where they leave R7, which has not
wrapped. -/
theorem State.popsLegal_succ (s : State) (p : Byte) (n : Nat) :
    s.PopsLegal p (n + 1) ↔ s.PopsLegal p n ∧ s.PopsLegal (p + BitVec.ofNat 8 n) 1 := by
  cases hc : s.cfg.stackCheck with
  | false => simp [State.PopsLegal, hc]
  | true =>
    have htop := s.cfg.spInit.isLt
    simp only [State.PopsLegal, hc, reduceCtorEq, false_or]
    by_cases hn : p.toNat + n ≤ 255
    · rw [byte_add_toNat hn]
      omega
    · omega

/-- `popreg`s into registers other than R7: when they are legal, and what they leave. -/
theorem popRegs_eq_ok_iff {is : List Reg} {s t : State} (hn : ∀ i ∈ is, i ≠ .r7) (hne : is ≠ []) :
    popRegs is s = .ok t ↔ s.PopsLegal (s.readReg .r7) is.length ∧ t = State.poppedAll is s := by
  by_cases h : s.PopsLegal (s.readReg .r7) is.length
  · rw [popRegs_legal hn h]
    simp [h, eq_comm]
  · obtain ⟨hc, hout⟩ := not_or.mp h
    rw [popRegs_illegal hn hne (Bool.eq_true_of_not_eq_false hc) hout]
    simp [h]

/-- The first `popreg`, then the others. -/
theorem popRegs_cons_eq_ok_iff {i : Reg} {is : List Reg} {s t : State} :
    popRegs (i :: is) s = .ok t ↔ s.popLegal = true ∧ popRegs is (s.popped i) = .ok t := by
  by_cases h : s.popLegal = true <;> simp [popRegs, popReg_eq, h]

theorem State.incSp_readReg (s : State) (r : Reg) :
    s.incSp.readReg r = if r = .r7 then s.readReg .r7 + 1 else s.readReg r := by
  rw [State.incSp_eq, State.readReg_writeReg]

@[simp] theorem State.incSp_readMem (s : State) (x : Byte) : s.incSp.readMem x = s.readMem x := rfl

/-- The state after IRET's last two pops, the pc and the flags byte. -/
def State.poppedPcFlags (u : State) : State :=
  (u.incSp.incSp.setFlags (Flags.ofByte (u.readMem (u.incSp.readReg .r7)))).jump
    (u.readMem (u.readReg .r7))

theorem State.poppedPcFlags_readReg (u : State) (r : Reg) :
    u.poppedPcFlags.readReg r = if r = .r7 then u.readReg .r7 + 1 + 1 else u.readReg r := by
  simp only [State.poppedPcFlags, State.jump_readReg, State.setFlags_readReg, State.incSp_readReg]
  split <;> rfl

/-- An interrupt return after its `popreg`s. -/
theorem interruptReturn_eq_ok_iff_popRegs {s t : State} : interruptReturn s = .ok t ↔
    ∃ u, popRegs [.r7, .r6, .r5, .r4, .r3, .r2, .r1, .r0] s = .ok u ∧
      u.popLegal = true ∧ u.incSp.popLegal = true ∧ t = u.poppedPcFlags := by
  cases hu : popRegs [.r7, .r6, .r5, .r4, .r3, .r2, .r1, .r0] s with
  | error f => simp [interruptReturn, hu]
  | ok u =>
    by_cases hpc : u.popLegal = true <;> by_cases hflags : u.incSp.popLegal = true <;>
      simp [interruptReturn, hu, pop8, hpc, hflags, State.poppedPcFlags, @eq_comm _ t]

/-- IRET's ten pops are legal iff the first is and so are nine from `q` on, the R7 that the first
restores; the state they leave (R201). -/
theorem interruptReturn_eq_ok_iff {s t : State} {q : Byte} (hq : q = s.readMem (s.readReg .r7) + 1) :
    interruptReturn s = .ok t ↔ (s.PopsLegal (s.readReg .r7) 1 ∧ s.PopsLegal q 9) ∧
      t = (State.poppedAll [.r7, .r6, .r5, .r4, .r3, .r2, .r1, .r0] s).poppedPcFlags := by
  obtain ⟨u, hu, hcfg, -, -, -, -, -, -, -, hlimit, -, hsp, -⟩ := interruptReturn_popped s q hq
  have hfirst : (s.popped .r7).readReg .r7 = q := by rw [State.popped_readReg, if_pos rfl, if_pos rfl, hq]
  have hregs : ∀ w, popRegs [.r7, .r6, .r5, .r4, .r3, .r2, .r1, .r0] s = .ok w ↔
      (s.PopsLegal (s.readReg .r7) 1 ∧ s.PopsLegal q 7) ∧ w = u := fun w => by
    rw [popRegs_cons_eq_ok_iff, popRegs_eq_ok_iff (by decide) (by decide), hfirst,
      s.popLegal_iff_popsLegal, hu, and_assoc]
    simp [State.PopsLegal, State.poppedAll]
  have hpc : u.popLegal = true ↔ s.PopsLegal (q + 7) 1 := by
    rw [State.popLegal_iff, hcfg, hlimit, hsp, State.PopsLegal]
  have hflags : u.incSp.popLegal = true ↔ s.PopsLegal (q + 8) 1 := by
    obtain ⟨-, -, -, -, -, -, hq8, -⟩ := byte_add_chain q
    rw [State.popLegal_iff, State.incSp_readReg, if_pos rfl, hsp, hq8, State.PopsLegal, ← hcfg, ← hlimit]
    rfl
  have hnine : s.PopsLegal q 9 ↔
      (s.PopsLegal q 7 ∧ s.PopsLegal (q + 7) 1) ∧ s.PopsLegal (q + 8) 1 :=
    (s.popsLegal_succ q 8).trans (and_congr_left' (s.popsLegal_succ q 7))
  simp only [interruptReturn_eq_ok_iff_popRegs, hregs, hnine, and_assoc, exists_and_left, exists_eq_left,
    hpc, hflags, ← hu]

/-- The two regions of IRET's pops under one test of the check (R201). -/
theorem State.popsLegal_and_iff {s : State} {p q : Byte} {m n : Nat} :
    s.PopsLegal p m ∧ s.PopsLegal q n ↔ s.cfg.stackCheck = false ∨
      (s.stackLimit ≤ p.toNat ∧ p.toNat + m ≤ s.cfg.spInit.toNat ∧ s.stackLimit ≤ q.toNat ∧
        q.toNat + n ≤ s.cfg.spInit.toNat) := by
  simp only [State.PopsLegal, ← or_and_left, and_assoc]

/-- Settles O36: the ten pops are legal together (`interruptReturn_eq_ok_iff`), and
`interruptReturn_popped` says what the first eight leave. -/
theorem iretPopsTheFrame : Obligations.IretPopsTheFrame := by
  refine ⟨rfl, fun s q hq => ⟨fun h => ?_, fun hc hillegal => ?_⟩⟩
  · obtain ⟨u, hu, hcfg, -, hstatus, hstart, hend, herr, hout, hmem, -, hloaded, h7, h6, h5, h4, h3, h2,
      h1, h0⟩ := interruptReturn_popped s q hq
    have hread : ∀ x, u.readMem x = s.readMem x := fun x => congrArg (Memory.read · x) hmem
    obtain ⟨-, -, -, -, -, -, hq8, hq9⟩ := byte_add_chain q
    have hret : interruptReturn s = .ok u.poppedPcFlags :=
      (interruptReturn_eq_ok_iff hq).mpr ⟨State.popsLegal_and_iff.mpr h, congrArg _ hu⟩
    have hflags : u.poppedPcFlags.flags = Flags.ofByte (s.readMem (q + 8)) := by
      rw [← hread, ← hq8, ← h7, State.poppedPcFlags, State.incSp_readReg]
      rfl
    have hkept := u.poppedPcFlags_readReg
    refine ⟨u.poppedPcFlags, congrArg (commit .iret s) hret, (hkept .r6).trans h6, (hkept .r5).trans h5,
      (hkept .r4).trans h4, (hkept .r3).trans h3, (hkept .r2).trans h2, (hkept .r1).trans h1,
      (hkept .r0).trans h0, ?_, congrArg Flags.e hflags, congrArg Flags.g hflags,
      congrArg Flags.l hflags, ?_, fun x _ => hread x, hout, hstatus, herr, hstart, hend, hcfg, hloaded⟩
    · rw [← hread, ← h7]
      exact byte_zeroExtend_toNat _
    · rw [hkept, if_pos rfl, h7, hq8, hq9]
  · cases hr : interruptReturn s with
    | ok t =>
      obtain ⟨hl, -⟩ := (interruptReturn_eq_ok_iff hq).mp hr
      exact absurd ((State.popsLegal_and_iff.mp hl).resolve_left (by simp [hc])) hillegal
    | error f =>
      rw [exec, execIret, hr, interruptReturn_error hr]
      exact raiseIn_faults .iret _ s

/-! ### INT, then IRET (R200, R201, R203) -/

/-- A fault leaves no Running core. -/
theorem FaultsWith.not_running {f : FaultName} {byte : Option Byte} {s t : State}
    (h : FaultsWith f byte s (.next t)) : t.status ≠ .running := by
  obtain ⟨u, ⟨⟩, hu, -⟩ := h
  rw [hu]
  nofun

/-- An INT that leaves the core Running passed each of its checks (O35, O38). -/
theorem exec_int_running {ra : Reg} {s t : State} (h : exec (.int ra.toByte) s = .next t)
    (ht : t.status = .running) : (s.readReg ra).toNat < s.cfg.intVectorCount ∧
      s.cfg.intVectorBase.toNat + (s.readReg ra).toNat ≤ 255 ∧ s.pc.toNat + 2 ≤ 255 ∧
      (s.cfg.stackCheck = false ∨ (s.stackLimit + 10 ≤ (s.readReg .r7).toNat ∧
        (s.readReg .r7).toNat ≤ s.cfg.spInit.toNat)) := by
  obtain ⟨hints, -⟩ := intPushesTheFrameAndJumps
  obtain ⟨-, -, hnumber, hreturn, hoverflow⟩ := hints ra s
  have hslot := vectorSlotPastMemoryFaults ra s
  rw [h] at hnumber hreturn hoverflow hslot
  have hn : (s.readReg ra).toNat < s.cfg.intVectorCount :=
    Nat.lt_of_not_le fun hn => (hnumber hn).not_running ht
  have hret : s.pc.toNat + 2 ≤ 255 := Nat.le_of_not_lt fun hret => (hreturn hn hret).not_running ht
  have hstack := Decidable.or_iff_not_imp_left.mpr fun hc => Decidable.not_not.mp fun hout =>
    (hoverflow hn hret (Bool.eq_true_of_not_eq_false hc) hout).not_running ht
  exact ⟨hn, Nat.le_of_not_lt fun hgt => (hslot hn hret hstack hgt).not_running ht, hret, hstack⟩

/-- Counting up from below an address. -/
theorem byte_sub_ofNat_add (p : Byte) {k n : Nat} (h : k ≤ n) :
    p - BitVec.ofNat 8 n + BitVec.ofNat 8 k = p - BitVec.ofNat 8 (n - k) := by
  obtain ⟨m, rfl⟩ := Nat.exists_eq_add_of_le h
  rw [Nat.add_sub_cancel_left, BitVec.ofNat_add]
  ring

/-- Where ten pushes were legal, so are ten pops from the R7 they left. -/
theorem State.popsLegal_of_ten_pushes {s u : State} (hcfg : u.cfg = s.cfg) (hend : u.imgEnd = s.imgEnd)
    (h : s.cfg.stackCheck = false ∨ (s.stackLimit + 10 ≤ (s.readReg .r7).toNat ∧
      (s.readReg .r7).toNat ≤ s.cfg.spInit.toNat)) :
    u.PopsLegal (s.readReg .r7 - 10) 1 ∧ u.PopsLegal (s.readReg .r7 - 9) 9 := by
  have hlimit : u.stackLimit = s.stackLimit := by simp only [State.stackLimit, hcfg, hend]
  rw [State.popsLegal_and_iff, hlimit, hcfg]
  refine h.imp_right fun hregion => ?_
  have hten : (s.readReg .r7 - 10).toNat = (s.readReg .r7).toNat - 10 := by bv_omega
  have hnine : (s.readReg .r7 - 9).toNat = (s.readReg .r7).toNat - 9 := by bv_omega
  omega

/-- The addresses IRET pops from, R7 as INT left it plus 1 and up, are those INT pushed to, counted down
from the R7 it found. -/
theorem readMem_popped_eq_pushed {t u : State} {p : Byte} (hmem : ∀ k : Nat, k < 10 →
      u.readMem (p - 10 + BitVec.ofNat 8 k) = t.readMem (p - 10 + BitVec.ofNat 8 k))
    {k : Nat} (hk : k < 9) :
    u.readMem (p - 9 + BitVec.ofNat 8 k) = t.readMem (p - BitVec.ofNat 8 (9 - k)) := by
  have hpushed : p - 10 + BitVec.ofNat 8 (k + 1) = p - BitVec.ofNat 8 (9 - k) :=
    (byte_sub_ofNat_add (n := 10) p (by omega)).trans (by rw [Nat.add_sub_add_right 9 1 k])
  have hpopped : p - 9 + BitVec.ofNat 8 k = p - BitVec.ofNat 8 (9 - k) := byte_sub_ofNat_add p hk.le
  rw [hpopped, ← hpushed]
  exact hmem (k + 1) (by omega)

theorem Flags.eq_of_fields {f g : Flags} (he : f.e = g.e) (hg : f.g = g.g) (hl : f.l = g.l) : f = g := by
  cases f; cases g; simp_all

/-- An IRET that leaves the core Running keeps memory, as data and not only as read. -/
theorem exec_iret_running_mem {s t : State} (h : exec .iret s = .next t) (ht : t.status = .running) :
    t.mem = s.mem := by
  obtain ⟨hmem, -⟩ | ⟨f, rfl⟩ := execIret_next h
  · exact hmem
  · cases ht

/-- Settles O37: INT passed its checks (`exec_int_running`), so the ten pops of IRET from the R7 it left
are legal (`State.popsLegal_of_ten_pushes`), and O36 pops the bytes that O35 says INT pushed. -/
theorem intThenIretResumesTheProgram : Obligations.IntThenIretResumesTheProgram := by
  intro ra s t u _ hint ht hu hcfg hend hsp hmem
  obtain ⟨hn, hslot, hret, hlegal⟩ := exec_int_running hint ht
  obtain ⟨hints, -⟩ := intPushesTheFrameAndJumps
  obtain ⟨-, hcompletes, -⟩ := hints ra s
  obtain ⟨t', ht', hfl, hra, hr0, hr1, hr2, hr3, hr4, hr5, hr6, hr7, htsp, -, hframe⟩ :=
    hcompletes hn hslot hret hlegal
  cases hint.symm.trans ht'
  rw [htsp] at hsp hmem
  have hpopped : ∀ {k}, k < 9 → u.readMem (s.readReg .r7 - 9 + BitVec.ofNat 8 k) =
      t.readMem (s.readReg .r7 - BitVec.ofNat 8 (9 - k)) := readMem_popped_eq_pushed hmem
  have htop : u.readMem (s.readReg .r7 - 10) = t.readMem (s.readReg .r7 - 10) := by
    simpa using hmem 0 (by decide)
  have hq : s.readReg .r7 - 9 = u.readMem (u.readReg .r7) + 1 := by
    rw [hsp, htop, hr7]
    exact (byte_sub_ofNat_add _ (by decide : 1 ≤ 10)).symm
  have hpops := State.popsLegal_of_ten_pushes (hcfg.trans hframe.run.cfg)
    (hend.trans hframe.run.imgEnd) hlegal
  rw [← hsp, State.popsLegal_and_iff] at hpops
  obtain ⟨-, hirets⟩ := iretPopsTheFrame
  obtain ⟨hreturns, -⟩ := hirets u _ hq
  obtain ⟨v, hv, h6, h5, h4, h3, h2, h1, h0, hpc, he, hg, hl, h7, -, hout, hrun⟩ := hreturns hpops
  have hrunning : v.status = .running := hrun.status.trans hu
  have hpushed : t.readMem (s.readReg .r7 - 1) = s.flags.toByte :=
    BitVec.eq_of_toNat_eq (hfl.trans s.flags.toByte_toNat.symm)
  have hflags : u.readMem (s.readReg .r7 - 9 + 8) = s.flags.toByte :=
    (hpopped (k := 8) (by decide)).trans hpushed
  obtain ⟨hbitE, hbitG, hbitL⟩ := s.flags.toByte_getLsbD
  rw [hflags] at he hg hl
  refine ⟨v, hv, hrunning, Regs.ext_get fun r => ?_, Flags.eq_of_fields (he.trans hbitE)
    (hg.trans hbitG) (hl.trans hbitL), ?_, exec_iret_running_mem hv hrunning, hout⟩
  · cases r with
    | r0 => exact h0.trans ((hpopped (k := 6) (by decide)).trans hr0)
    | r1 => exact h1.trans ((hpopped (k := 5) (by decide)).trans hr1)
    | r2 => exact h2.trans ((hpopped (k := 4) (by decide)).trans hr2)
    | r3 => exact h3.trans ((hpopped (k := 3) (by decide)).trans hr3)
    | r4 => exact h4.trans ((hpopped (k := 2) (by decide)).trans hr4)
    | r5 => exact h5.trans ((hpopped (k := 1) (by decide)).trans hr5)
    | r6 =>
      rw [← BitVec.add_zero (s.readReg .r7 - 9)] at h6
      exact h6.trans ((hpopped (k := 0) (by decide)).trans hr6)
    | r7 => exact h7.trans (BitVec.sub_add_cancel _ _)
  · rw [hpc, ← hra]
    exact congrArg BitVec.toNat (hpopped (k := 7) (by decide))

end Sys2Proof.Machine
end

section
/-! PROOFS of the statements of 60_exceptions.md and 70_reset_and_hazards.md: what a step that faults
commits (R221), the fault no step raises (R225), the codes of the halt reasons (R220), and one load per
reset (R250, R255). -/

namespace Sys2Proof.Machine

/-! ### Faulting steps (R221, R225) -/

/-- An instruction that completes on a Running core leaves it Running or Halted(Ok). -/
theorem Completed.status_ne_fault {i : Instr} {s t : State} (hc : Completed i s t)
    (hr : s.status = .running) (f : FaultName) : t.status ≠ .halted (.fault f) := by
  obtain e | ⟨-, e⟩ := hc.status
  · simp [e, hr]
  · simp [e]

/-- Settles O44: `step_cases` gives the fault a step takes, which is another one, and an instruction that
completes takes none and keeps err. -/
theorem unsupportedAluOperationIsUnreachable : Obligations.UnsupportedAluOperationIsUnreachable := by
  intro s t h
  obtain ⟨hr, ⟨f, hf, rfl⟩ | ⟨i, -, -, hc⟩⟩ := step_cases h
  · refine ⟨?_, .inr ?_⟩
    · rintro ⟨⟩
      exact hf rfl
    · rintro r ⟨⟩
      exact hf
  · exact ⟨hc.status_ne_fault hr _, .inl hc.err⟩

/-- Settles O46: a step that faults is a fault entry (`State.raise`), since an instruction that completes
does not halt with a fault. -/
theorem faultingStepCommitsNothing : Obligations.FaultingStepCommitsNothing := by
  intro s t f h ht
  obtain ⟨hr, ⟨g, -, rfl⟩ | ⟨i, -, -, hc⟩⟩ := step_cases h
  · rfl
  · exact absurd ht (hc.status_ne_fault hr f)

/-! ### The codes of the halt reasons (R220) -/

/-- The halt reasons in the order of R220's table. -/
def haltReasons : List HaltReason :=
  [.ok, .fault .unknownOpcode, .fault .programCounterOutOfBounds, .fault .divisionByZero,
    .fault .unsupportedAluOperation, .fault .stackOverflow, .fault .stackUnderflow,
    .fault .invalidRegisterIndex, .fault .invalidInterruptNumber]

/-- The code of a halt reason is its place in the table. -/
theorem haltReasons_getElem?_code (r : HaltReason) : haltReasons[r.code]? = some r := by
  cases r with
  | ok => rfl
  | fault f => cases f <;> rfl

theorem HaltReason.code_injective : Function.Injective HaltReason.code := fun r q h =>
  Option.some.inj <| by rw [← haltReasons_getElem?_code r, h, haltReasons_getElem?_code q]

/-- Settles O54: the codes count through the table, so each gives its halt reason back
(`haltReasons_getElem?_code`). -/
theorem haltReasonsHaveDistinctCodes : Obligations.HaltReasonsHaveDistinctCodes :=
  ⟨rfl, fun _ _ h => HaltReason.code_injective h⟩

/-! ### One load per reset (R250, R255) -/

/-- Every state of a run carries the mark of its load, and the parameters of its reset. -/
theorem Reaches.loaded_and_cfg {cfg : Config} {image : List Byte} {s t : State}
    (hload : (State.resetWith cfg).load image = .ok s) (hreach : Reaches s t) :
    t.loaded = true ∧ t.cfg = cfg := by
  obtain ⟨-, -, rfl⟩ := State.load_ok hload
  refine hreach.keeps (P := fun u => u.loaded = true ∧ u.cfg = cfg) ?_ ⟨rfl, rfl⟩
  rintro u w ⟨hloaded, hcfg⟩ hstep
  obtain ⟨-, -, ecfg, eloaded⟩ := stepsKeepImageExtentAndParameters u w hstep
  exact ⟨eloaded.trans hloaded, ecfg.trans hcfg⟩

/-- Settles O59: the mark of the load keeps the run off the reset state, where alone a load is taken
(O53); reset reads nothing of the state but its parameters, which the run kept. -/
theorem loadingAgainNeedsANewReset : Obligations.LoadingAgainNeedsANewReset := by
  intro cfg image again s t hload hreach
  obtain ⟨hloaded, hcfg⟩ := hreach.loaded_and_cfg hload
  have hreset : t.assertReset = State.resetWith cfg := congrArg State.resetWith hcfg
  exact ⟨loadNeedsTheResetState t again (State.ne_resetWith_of_loaded hloaded t.cfg), hreset,
    by rw [hreset]⟩

end Sys2Proof.Machine
end
